-- ==== Sys2Proof/Word.lean ====
section
/-! DEFINITION. The sizes of 00_scope.md R4: bytes, 16-bit immediates, 24 argument bits, 32-bit words,
and the eight general register numbers. -/

namespace Sys2Proof

/-- A byte is 8 bits (20_memory.md R50, 93 G3; log 20). -/
abbrev Byte := BitVec 8

/-- The basic data type, a 32-bit word (00_scope.md R4); registers, addresses and instruction words are words. -/
abbrev Word := BitVec 32

/-- The 16-bit field an instruction carries as imm16 or offset16 (00_scope.md R4, R11). -/
abbrev Half := BitVec 16

/-- The argument bits 23..0 of an instruction word (30_encoding.md R81). -/
abbrev Args := BitVec 24

/-- The number of a general register R0 to R7 (10_state.md R21, 30_encoding.md R86). -/
abbrev Reg := Fin 8

end Sys2Proof
end

