-- ==== Sys2Proof/Syntax.lean ====
section
/-! DEFINITION. The decoded instructions: one constructor for each of the twelve rows of spec/opcode_table.json
(30_encoding.md R93, "Twelve decoded forms exist"). Operands stand in the order the source writes them. -/

namespace Sys2Proof

/-- A decoded instruction (30_encoding.md R82, R93). A register field can never be illegal (R86) and every
16-bit immediate is legal (R87, R88), so every term of this type is an instruction. -/
inductive Instr where
  /-- `MOV Rd, Rs` (R111) -/
  | movR (rd rs : Reg)
  /-- `MOV Rd, #imm16` (R112) -/
  | movI (rd : Reg) (imm16 : Half)
  /-- `ADD Rd, Rs` (R113) -/
  | addR (rd rs : Reg)
  /-- `ADD Rd, #imm16` (R114) -/
  | addI (rd : Reg) (imm16 : Half)
  /-- `SUB Rd, Rs` (R115) -/
  | subR (rd rs : Reg)
  /-- `SUB Rd, #imm16` (R116) -/
  | subI (rd : Reg) (imm16 : Half)
  /-- `LOAD Rd, [Rs + imm16]` (R131) -/
  | load (rd rs : Reg) (imm16 : Half)
  /-- `STORE Rs, [Rd + imm16]` (R132): the value register first, the base register second -/
  | store (rs rd : Reg) (imm16 : Half)
  /-- `JMP offset16` (R141) -/
  | jmp (offset16 : Half)
  /-- `JZ offset16` (R142) -/
  | jz (offset16 : Half)
  /-- `JNZ offset16` (R143) -/
  | jnz (offset16 : Half)
  /-- `HALT` (R150) -/
  | halt
  deriving DecidableEq, Repr

end Sys2Proof
end

