-- ==== Sys2Proof/Decode.lean ====
section
/-! DEFINITION. The opcode map (30_encoding.md R83), the default argument layout (R84 to R89), the decoder (R93) and the
encoder (R98), and the little-endian view of a word (20_memory.md R51). The layout of bits 23..0 is a parameter
(ARGS_LAYOUT, 92_eei_decisions.md D1); the opcode byte is the source's. -/

namespace Sys2Proof

/-! ## Words and bytes (20_memory.md R51) -/

/-- Byte `k` of a word, byte 0 the least significant: the byte that stands at address `a + k`. -/
def byteOfWord (w : Word) (k : Nat) : Byte := BitVec.extractLsb' (8 * k) 8 w

/-- The word whose bytes at `a`, `a + 1`, `a + 2`, `a + 3` are `b0`, `b1`, `b2`, `b3`. -/
def wordOfBytes (b0 b1 b2 b3 : Byte) : Word := b3 ++ b2 ++ b1 ++ b0

/-- The four bytes of a word, the lowest address first. -/
def bytesOfWord (w : Word) : List Byte :=
  [byteOfWord w 0, byteOfWord w 1, byteOfWord w 2, byteOfWord w 3]

/-! ## The opcode map (30_encoding.md R81, R83) -/

/-- The nine instructions of the opcode table (30_encoding.md R83). -/
inductive Mnemonic where
  | mov | add | sub | load | store | jmp | jz | jnz | halt
  deriving DecidableEq, Repr

/-- The opcode byte `w[31:24]` of each instruction (30_encoding.md R83). -/
def opcodeOf : Mnemonic → BitVec 8
  | .mov => 0x01
  | .add => 0x02
  | .sub => 0x03
  | .load => 0x04
  | .store => 0x05
  | .jmp => 0x06
  | .jz => 0x07
  | .jnz => 0x08
  | .halt => 0xFF

/-- The instruction an opcode byte selects, if any: 247 values select none (30_encoding.md R90). -/
def mnemonicOf (op : BitVec 8) : Option Mnemonic :=
  if op = 0x01 then some .mov
  else if op = 0x02 then some .add
  else if op = 0x03 then some .sub
  else if op = 0x04 then some .load
  else if op = 0x05 then some .store
  else if op = 0x06 then some .jmp
  else if op = 0x07 then some .jz
  else if op = 0x08 then some .jnz
  else if op = 0xFF then some .halt
  else none

/-- The instruction a decoded form belongs to. The two forms of MOV, of ADD and of SUB share one opcode (R83). -/
def Instr.mnemonic : Instr → Mnemonic
  | .movR _ _ => .mov
  | .movI _ _ => .mov
  | .addR _ _ => .add
  | .addI _ _ => .add
  | .subR _ _ => .sub
  | .subI _ _ => .sub
  | .load _ _ _ => .load
  | .store _ _ _ => .store
  | .jmp _ => .jmp
  | .jz _ => .jz
  | .jnz _ => .jnz
  | .halt => .halt

/-! ## ARGS_LAYOUT (92_eei_decisions.md D1) -/

/-- ARGS_LAYOUT: how the 24 argument bits hold the operands of each instruction. `decode` is told STRICT_RESERVED. -/
structure ArgsLayout where
  decode : Bool → Mnemonic → Args → Option Instr
  encode : Instr → Args

/-- The round-trip law 92_eei_decisions.md asks of a layout (note on D1): what `encode` lays out, `decode` reads back,
strict or not, and `decode` answers an instruction of the mnemonic it was asked for. -/
structure ArgsLayout.Lawful (L : ArgsLayout) : Prop where
  decode_encode : ∀ strict i, L.decode strict i.mnemonic (L.encode i) = some i
  decode_mnemonic : ∀ strict m a i, L.decode strict m a = some i → i.mnemonic = m

/-- The register a 3-bit field names: `i` for Ri (30_encoding.md R86). -/
def regOfBits (b : BitVec 3) : Reg := ⟨b.toNat, b.isLt⟩

/-- The 3-bit number of a register (30_encoding.md R86). -/
def bitsOfReg (r : Reg) : BitVec 3 := BitVec.ofNat 3 r.val

/-- The form selector `I`, bit 23 (30_encoding.md R84, R85). -/
def argSel (a : Args) : BitVec 1 := BitVec.extractLsb' 23 1 a

/-- The `rd` field, bits 22..20 (30_encoding.md R84). -/
def argRd (a : Args) : BitVec 3 := BitVec.extractLsb' 20 3 a

/-- The unused bit 19 (30_encoding.md R84). -/
def argZ19 (a : Args) : BitVec 1 := BitVec.extractLsb' 19 1 a

/-- The `rs` field, bits 18..16 (30_encoding.md R84). -/
def argRs (a : Args) : BitVec 3 := BitVec.extractLsb' 16 3 a

/-- The `imm` field, bits 15..0 (30_encoding.md R84). -/
def argImm (a : Args) : Half := BitVec.extractLsb' 0 16 a

/-- Argument bits from their fields, in the order of the table of 30_encoding.md R84. -/
def mkArgs (sel : BitVec 1) (rd : BitVec 3) (z19 : BitVec 1) (rs : BitVec 3) (imm : Half) : Args :=
  sel ++ rd ++ z19 ++ rs ++ imm

/-- An instruction `i` whose unused bits must be zero: with STRICT_RESERVED the test `unusedZero` decides, without it the
test is dropped (30_encoding.md R89, R93). -/
def acceptUnused (strict unusedZero : Bool) (i : Instr) : Option Instr :=
  if !strict || unusedZero then some i else none

/-- The operands of MOV, ADD and SUB: bit `I` selects the register form or the immediate form (30_encoding.md R85, R93). -/
def decodeTwoForms (strict : Bool) (a : Args) (regForm : Reg → Reg → Instr) (immForm : Reg → Half → Instr) : Option Instr :=
  if argSel a = 0 then
    acceptUnused strict (argZ19 a == 0 && argImm a == 0) (regForm (regOfBits (argRd a)) (regOfBits (argRs a)))
  else
    acceptUnused strict (argZ19 a == 0 && argRs a == 0) (immForm (regOfBits (argRd a)) (argImm a))

/-- The operands of a jump: `imm` only, bits 23..16 unused (30_encoding.md R84, R93). -/
def decodeJump (strict : Bool) (a : Args) (form : Half → Instr) : Option Instr :=
  acceptUnused strict (argSel a == 0 && argRd a == 0 && argZ19 a == 0 && argRs a == 0) (form (argImm a))

/-- The argument decoder of the default layout (30_encoding.md R93). -/
def decodeArgs (strict : Bool) (m : Mnemonic) (a : Args) : Option Instr :=
  match m with
  | .mov => decodeTwoForms strict a .movR .movI
  | .add => decodeTwoForms strict a .addR .addI
  | .sub => decodeTwoForms strict a .subR .subI
  | .load =>
    acceptUnused strict (argSel a == 0 && argZ19 a == 0) (.load (regOfBits (argRd a)) (regOfBits (argRs a)) (argImm a))
  | .store =>
    acceptUnused strict (argSel a == 0 && argZ19 a == 0) (.store (regOfBits (argRs a)) (regOfBits (argRd a)) (argImm a))
  | .jmp => decodeJump strict a .jmp
  | .jz => decodeJump strict a .jz
  | .jnz => decodeJump strict a .jnz
  | .halt => acceptUnused strict (a == 0) .halt

/-- The argument encoder of the default layout (30_encoding.md R98). In STORE the value register goes to the `rs` field
and the base register to the `rd` field. -/
def encodeArgs : Instr → Args
  | .movR rd rs => mkArgs 0 (bitsOfReg rd) 0 (bitsOfReg rs) 0
  | .movI rd imm16 => mkArgs 1 (bitsOfReg rd) 0 0 imm16
  | .addR rd rs => mkArgs 0 (bitsOfReg rd) 0 (bitsOfReg rs) 0
  | .addI rd imm16 => mkArgs 1 (bitsOfReg rd) 0 0 imm16
  | .subR rd rs => mkArgs 0 (bitsOfReg rd) 0 (bitsOfReg rs) 0
  | .subI rd imm16 => mkArgs 1 (bitsOfReg rd) 0 0 imm16
  | .load rd rs imm16 => mkArgs 0 (bitsOfReg rd) 0 (bitsOfReg rs) imm16
  | .store rs rd imm16 => mkArgs 0 (bitsOfReg rd) 0 (bitsOfReg rs) imm16
  | .jmp offset16 => mkArgs 0 0 0 0 offset16
  | .jz offset16 => mkArgs 0 0 0 0 offset16
  | .jnz offset16 => mkArgs 0 0 0 0 offset16
  | .halt => 0

/-- The default ARGS_LAYOUT (30_encoding.md R84; 92_eei_decisions.md D1, D2, D3. DESIGN CHOICE of the spec; log 1). -/
def ArgsLayout.default : ArgsLayout := { decode := decodeArgs, encode := encodeArgs }

/-! ## Decoding a word (30_encoding.md R81, R93) -/

/-- Why bits are no instruction. -/
inductive DecodeError where
  /-- fewer than the four bytes an instruction has (30_encoding.md R80) -/
  | truncated (bytes : List Byte)
  /-- an opcode byte that selects no instruction (30_encoding.md R90) -/
  | undefinedOpcode (op : BitVec 8)
  /-- argument bits the layout rejects: a non-zero unused bit (30_encoding.md R89) -/
  | illegalArguments (m : Mnemonic) (a : Args)
  deriving DecidableEq, Repr

/-- The opcode of a word, `w[31:24]` (30_encoding.md R81). -/
def opcodeField (w : Word) : BitVec 8 := BitVec.extractLsb' 24 8 w

/-- The argument bits of a word, `w[23:0]` (30_encoding.md R81). -/
def argsField (w : Word) : Args := BitVec.extractLsb' 0 24 w

/-- The decoder, total on all words, under a layout and STRICT_RESERVED (30_encoding.md R93). -/
def decodeWord (L : ArgsLayout) (strict : Bool) (w : Word) : Except DecodeError Instr :=
  match mnemonicOf (opcodeField w) with
  | none => .error (.undefinedOpcode (opcodeField w))
  | some m =>
    match L.decode strict m (argsField w) with
    | none => .error (.illegalArguments m (argsField w))
    | some i => .ok i

/-- The decoder on bytes, total: the instruction at the front and the bytes after it (30_encoding.md R80, 20_memory.md R51). -/
def decodeBytes (L : ArgsLayout) (strict : Bool) : List Byte → Except DecodeError (Instr × List Byte)
  | b0 :: b1 :: b2 :: b3 :: rest =>
    match decodeWord L strict (wordOfBytes b0 b1 b2 b3) with
    | .error e => .error e
    | .ok i => .ok (i, rest)
  | bytes => .error (.truncated bytes)

/-- The encoder under a layout: the opcode byte above the argument bits (30_encoding.md R81, R98). -/
def encodeWith (L : ArgsLayout) (i : Instr) : Word := opcodeOf i.mnemonic ++ L.encode i

/-- The word of an instruction in the default layout (30_encoding.md R98). -/
def encode (i : Instr) : Word := encodeWith .default i

/-- The bytes of an instruction, the lowest address first (30_encoding.md R80, 20_memory.md R51). -/
def encodeBytes (i : Instr) : List Byte := bytesOfWord (encode i)

/-- The instruction the decoder reads from bits numbered as spec/opcode_table.json numbers them, every bit from `nbits` up
being 0, in the default layout with STRICT_RESERVED = true. -/
def decodeTableWord (nbits w : Nat) : Option Instr :=
  match decodeBytes .default true (bytesOfWord (BitVec.ofNat 32 (w % 2 ^ nbits))) with
  | .ok (i, _) => some i
  | .error _ => none

/-! ## The table's rows as match and mask (opcode_table.json) -/

/-- A row of the opcode table: a word is of this form when it agrees with `pattern` on the bits of `mask`. -/
structure OpcodeRow where
  mask : Word
  pattern : Word
  deriving DecidableEq, Repr

/-- The twelve rows, with the match and mask that each instruction's rule gives under STRICT_RESERVED = true
(40_move_arith.md, 41_load_store.md, 42_jumps.md, 43_halt.md; opcode_table.json). -/
def opcodeRows : List OpcodeRow :=
  [ ⟨0xFF88FFFF, 0x01000000⟩, ⟨0xFF8F0000, 0x01800000⟩,
    ⟨0xFF88FFFF, 0x02000000⟩, ⟨0xFF8F0000, 0x02800000⟩,
    ⟨0xFF88FFFF, 0x03000000⟩, ⟨0xFF8F0000, 0x03800000⟩,
    ⟨0xFF880000, 0x04000000⟩, ⟨0xFF880000, 0x05000000⟩,
    ⟨0xFFFF0000, 0x06000000⟩, ⟨0xFFFF0000, 0x07000000⟩, ⟨0xFFFF0000, 0x08000000⟩,
    ⟨0xFFFFFFFF, 0xFF000000⟩ ]

/-- The bits of a word that the form its opcode and its bit 23 select uses, as 30_encoding.md R84 lists them per type: the
opcode, bit 23 where it selects the form (R85), the register fields and the immediate. The others are unused (R89). -/
def usedBits (w : Word) : Word :=
  match mnemonicOf (opcodeField w) with
  | some .mov | some .add | some .sub => if BitVec.getLsbD w 23 then 0xFFF0FFFF else 0xFFF70000
  | some .load | some .store => 0xFF77FFFF
  | some .jmp | some .jz | some .jnz => 0xFF00FFFF
  | some .halt | none => 0xFF000000

/-- A word agrees with a row of the opcode table. -/
def OpcodeRow.matchesWord (row : OpcodeRow) (w : Word) : Bool := w &&& row.mask == row.pattern

end Sys2Proof
end

