-- ==== Sys2Proof/Config.lean ====
section
/-! DEFINITION. The implementation parameters of 00_scope.md R5 that are plain data (MEM_MAP, MISALIGNED_POLICY,
STRICT_RESERVED), and the free value that INIT_MEM leaves: what a byte nobody loaded holds. -/

namespace Sys2Proof

/-- A run of byte addresses `base`, `base + 1`, ... of `size` bytes. -/
structure Region where
  base : Nat
  size : Nat
  deriving DecidableEq, Repr

/-- MISALIGNED_POLICY (92_eei_decisions.md D6): what LOAD and STORE do at an address that is no multiple of 4. -/
inductive MisalignedPolicy where
  /-- raise `MisalignedAccess` (20_memory.md R53), the default -/
  | fault
  /-- access the four bytes one by one (20_memory.md R68) -/
  | bytewise
  deriving DecidableEq, Repr

/-- The parameters a model takes as arguments (00_scope.md R5). They do not change while the CPU runs. -/
structure Config where
  /-- MEM_MAP: the byte addresses backed by plain memory (20_memory.md R52), as a list of regions -/
  memMap : List Region
  /-- MISALIGNED_POLICY (20_memory.md R53, R68) -/
  misaligned : MisalignedPolicy
  /-- STRICT_RESERVED: whether a non-zero unused argument bit makes a word illegal (30_encoding.md R89) -/
  strictReserved : Bool
  deriving DecidableEq, Repr

/-- The defaults of 92_eei_decisions.md D4 and D6. MEM_MAP has no default in the spec; this is all 2^32 addresses,
which 20_memory.md R52 allows (DESIGN CHOICE, unsafe; log 6). -/
def Config.default : Config :=
  { memMap := [⟨0, 2 ^ 32⟩], misaligned := .fault, strictReserved := true }

/-- What a byte holds that the host did not load and no STORE has written: any value, not zero by default
(20_memory.md R66, 92_eei_decisions.md D8). No body, so nothing can be proved of it (safe; log 7). -/
opaque Config.initByte : Nat → Byte

end Sys2Proof
end

