-- ==== Sys2Proof/Machine/State.lean ====
section
/-! DEFINITION. The state of the machine (10_state.md: eight general registers, PC, SP, FLAGS, a run state and memory,
"Nothing else"), the parameters of the run, why a step stops, and the state after reset (70_reset_and_hazards.md R180). -/

namespace Sys2Proof.Machine

/-- The four flags of FLAGS, bits 0 to 3; bits 4 to 31 are hardwired 0 and so are no fields (10_state.md R28, R29). -/
structure Flags where
  z : Bool
  n : Bool
  c : Bool
  v : Bool
  deriving DecidableEq, Repr

/-- The two instructions that access data (60_exceptions.md R162: "EA, load or store"). -/
inductive DataAccess where
  | load
  | store
  deriving DecidableEq, Repr

/-- An access to memory: the fetch of a step, or a data access (60_exceptions.md R162). -/
inductive Access where
  | fetch
  | data (d : DataAccess)
  deriving DecidableEq, Repr

/-- The three fault causes with their `info` (60_exceptions.md R160, R162). They are recorded in `run`. -/
inductive FaultCause where
  /-- the word at `pc` decodes to no form (R163) -/
  | illegalInstruction (w pc : Word)
  /-- LOAD or STORE at an address that is no multiple of 4 under MISALIGNED_POLICY = fault (R164) -/
  | misalignedAccess (ea : Word) (d : DataAccess)
  /-- a word not wholly in MEM_MAP (R165) -/
  | busError (a : Word) (k : Access)
  deriving DecidableEq, Repr

/-- The run state (10_state.md R33). -/
inductive Run where
  | running
  | halted
  | faulted (cause : FaultCause)
  deriving DecidableEq, Repr

/-- Memory: the bytes that were loaded or stored, by address, addresses strictly rising; see `Memory.wf` in Ops. An
address that is not listed holds no byte of the host's or of a STORE's, and reads as `Config.initByte` (20_memory.md R66). -/
abbrev Memory := List Host.Cell

/-- The state of the machine (10_state.md). `cfg` holds the parameters of 00_scope.md R5, which no step changes (log 18). -/
structure State where
  /-- R0 to R7 (10_state.md R20, R21) -/
  regs : Vector Word 8
  /-- PC, the byte address of the current instruction (10_state.md R23) -/
  pc : Word
  /-- SP, inert in this release (10_state.md R27) -/
  sp : Word
  /-- FLAGS (10_state.md R28) -/
  flags : Flags
  /-- the run state (10_state.md R33) -/
  run : Run
  /-- memory (10_state.md R36) -/
  mem : Memory
  /-- the parameters (00_scope.md R5) -/
  cfg : Config
  deriving DecidableEq, Repr

/-- Why `step` answers no next state: the states in which "no step exists" (10_state.md R33, R37). The fault causes of
60_exceptions.md are not here: taking one is a next state with `run = FAULTED`. -/
inductive Fault where
  /-- raised by `step` when `run = HALTED` (43_halt.md R151, 93 U1 "stuck"); safe: nothing runs on -/
  | halted
  /-- raised by `step` when `run = FAULTED(cause)` (60_exceptions.md R161); safe: nothing runs on -/
  | faulted (cause : FaultCause)
  deriving DecidableEq, Repr

/-- What the model refuses, by name. -/
inductive Refusal where
  /-- raised by `exec` for an instruction with no meaning yet; no arm does; safe -/
  | notModelled (mnemonic : String)
  /-- raised by `step` for a running state whose PC is no multiple of 4: "a model refuses such a launch state"
  (10_state.md R25, 92 D6; log 5); safe -/
  | misalignedPc (pc : Word)
  deriving DecidableEq, Repr

/-- The machine right after reset, with nothing loaded (10_state.md R38, 70_reset_and_hazards.md R180). The run state is
92 D15 (log 14) and the parameters are the defaults (log 2, 4, 6). -/
def State.reset : State :=
  { regs := Vector.replicate 8 0
    pc := 0
    sp := 0
    flags := { z := false, n := false, c := false, v := false }
    run := .running
    mem := []
    cfg := .default }

end Sys2Proof.Machine
end

