-- ==== Sys2Proof/Machine/Ops.lean ====
section
/-! DEFINITION. The named operations over registers, memory and the run state: the register primitives of 00_scope.md R9,
memory as a canonical list of bytes, MemRead, MemWrite and Fetch (20_memory.md R54, R55, R63), taking a fault
(60_exceptions.md R161) and the host's reset, the only way out of one (70_reset_and_hazards.md R186). -/

namespace Sys2Proof.Machine

/-! ## Registers (00_scope.md R9) -/

/-- `x[i]`. -/
def State.reg (s : State) (r : Reg) : Word := s.regs[r.val]'r.isLt

/-- `x[i] <- v`. No register is hardwired (10_state.md R21). -/
def State.setReg (s : State) (r : Reg) (v : Word) : State := { s with regs := s.regs.set r.val v r.isLt }

/-- `pc <- v`. -/
def State.setPc (s : State) (v : Word) : State := { s with pc := v }

/-- `pc <- pc + 4`, modulo 2^32 (10_state.md R24, R26). -/
def State.advance (s : State) : State := s.setPc (s.pc + 4)

/-- FLAGS takes these flags. -/
def State.setFlags (s : State) (f : Flags) : State := { s with flags := f }

/-- `run <- r` (10_state.md R33). -/
def State.setRun (s : State) (r : Run) : State := { s with run := r }

/-! ## Memory (20_memory.md R50, R57, R66) -/

/-- The byte that was loaded or stored at an address, if any was. -/
def Memory.lookup : Memory → Nat → Option Byte
  | [], _ => none
  | (k, b) :: m, a => if k = a then some b else Memory.lookup m a

/-- The memory with byte `b` at address `a`, in rising order of addresses. -/
def Memory.insert : Memory → Nat → Byte → Memory
  | [], a, b => [(a, b)]
  | (k, c) :: m, a, b =>
    if a < k then (a, b) :: (k, c) :: m
    else if a = k then (a, b) :: m
    else (k, c) :: Memory.insert m a b

/-- Every address listed is above `lo` and below 2^32, and they rise strictly. -/
def Memory.risingFrom : Nat → Memory → Bool
  | _, [] => true
  | lo, (k, _) :: m => decide (lo ≤ k) && decide (k < 2 ^ 32) && Memory.risingFrom (k + 1) m

/-- The canonical form: strictly rising addresses of the 32-bit space. An unlisted address reads as no listed byte
(it reads as the free value of that address), so no entry repeats what an unlisted address reads as. -/
def Memory.wf (m : Memory) : Bool := Memory.risingFrom 0 m

/-- The byte at an address: what was loaded or stored there, else the free value of that address (20_memory.md R57, R66). It
does not check MEM_MAP, as every access of a step does before it reads (R52); outside MEM_MAP the value is the model's alone
(DESIGN CHOICE, log 22). -/
def State.readByte (s : State) (a : Word) : Byte := (Memory.lookup s.mem a.toNat).getD (Config.initByte a.toNat)

/-- `mem[a] <- b`. -/
def State.writeByte (s : State) (a : Word) (b : Byte) : State := { s with mem := Memory.insert s.mem a.toNat b }

/-- A region holds an address. -/
def regionHolds (r : Region) (a : Word) : Bool := decide (r.base ≤ a.toNat) && decide (a.toNat < r.base + r.size)

/-- An address is in MEM_MAP (20_memory.md R52). -/
def inMemMap (c : Config) (a : Word) : Bool := c.memMap.any (fun r => regionHolds r a)

/-- A word access at `a` is backed: `a`, `a + 1`, `a + 2`, `a + 3`, each modulo 2^32, are all in MEM_MAP (20_memory.md R52). -/
def State.backed (s : State) (a : Word) : Bool :=
  inMemMap s.cfg a && inMemMap s.cfg (a + 1) && inMemMap s.cfg (a + 2) && inMemMap s.cfg (a + 3)

/-- An address is a multiple of 4: `a[1:0] = 00`. -/
def aligned (a : Word) : Bool := BitVec.extractLsb' 0 2 a == 0

/-- The little-endian word at `a`, each address modulo 2^32 (20_memory.md R51, R54). -/
def State.wordAt (s : State) (a : Word) : Word :=
  wordOfBytes (s.readByte a) (s.readByte (a + 1)) (s.readByte (a + 2)) (s.readByte (a + 3))

/-- The state with the word `v` at `a`, least significant byte first (20_memory.md R51, R55). -/
def State.putWord (s : State) (a v : Word) : State :=
  (((s.writeByte a (byteOfWord v 0)).writeByte (a + 1) (byteOfWord v 1)).writeByte (a + 2) (byteOfWord v 2)).writeByte
    (a + 3) (byteOfWord v 3)

/-- The fault a data access at `a` raises, if any: MisalignedAccess before BusError (20_memory.md R53, R54, R55;
60_exceptions.md R166). Under MISALIGNED_POLICY = bytewise the alignment test is dropped (20_memory.md R68). -/
def State.dataFault (s : State) (a : Word) (d : DataAccess) : Option FaultCause :=
  if s.cfg.misaligned = .fault ∧ aligned a = false then some (.misalignedAccess a d)
  else if s.backed a = false then some (.busError a (.data d))
  else none

/-- `MemRead(a, 4)` (20_memory.md R54). -/
def State.memRead (s : State) (a : Word) : Except FaultCause Word :=
  match s.dataFault a .load with
  | some c => .error c
  | none => .ok (s.wordAt a)

/-- `MemWrite(a, 4, v)` (20_memory.md R55). -/
def State.memWrite (s : State) (a v : Word) : Except FaultCause State :=
  match s.dataFault a .store with
  | some c => .error c
  | none => .ok (s.putWord a v)

/-- `Fetch(a)` (20_memory.md R63): no alignment test. It reads the memory STORE writes (R64). -/
def State.fetch (s : State) (a : Word) : Except FaultCause Word :=
  if s.backed a = false then .error (.busError a .fetch) else .ok (s.wordAt a)

/-! ## Taking a fault, and the only way out of one -/

/-- `raise F(info)` (60_exceptions.md R161): the step is abandoned, nothing changes but `run <- FAULTED(F, info)`; `pc`
keeps the address of the faulting instruction. There is no handler, no vector and no saved register (R168). -/
def State.enterFault (s : State) (c : FaultCause) : State := s.setRun (.faulted c)

/-- The host's reset (70_reset_and_hazards.md R180, R181, R186): the registers and the run state of reset, memory and
parameters as they were. No instruction returns from a fault (60_exceptions.md R169). -/
def State.hostReset (s : State) : State := { State.reset with mem := s.mem, cfg := s.cfg }

end Sys2Proof.Machine
end

