-- ==== Sys2Proof/Machine/Halt.lean ====
section
/-! DEFINITION. HALT (43_halt.md R150): only the run state is written; `pc` keeps the address of the HALT. -/

namespace Sys2Proof.Machine

/-- `HALT` (R150). -/
def execHalt (s : State) : Host.Outcome State Fault Refusal := .next (s.setRun .halted)

end Sys2Proof.Machine
end

