-- ==== Sys2Proof/Machine/Operands.lean ====
section
/-! DEFINITION. Every operand form: the sign-extended immediate (00_scope.md R8), the second operand of MOV, ADD and SUB
(40_move_arith.md R110), the effective address (41_load_store.md R130) and the jump target (42_jumps.md R140). -/

namespace Sys2Proof.Machine

/-- `sext_32(imm16)` (00_scope.md R8). -/
def sext32 (i : Half) : Word := BitVec.signExtend 32 i

/-- `x[base] + sext_32(imm16)`, modulo 2^32 (41_load_store.md R130). -/
def State.effectiveAddress (s : State) (base : Reg) (imm16 : Half) : Word := s.reg base + sext32 imm16

/-- `pc + 4 + (sext_32(offset16) << 2)`, modulo 2^32 (42_jumps.md R140). -/
def State.jumpTarget (s : State) (offset16 : Half) : Word := s.pc + 4 + (sext32 offset16 <<< (2 : Nat))

end Sys2Proof.Machine
end

