-- ==== Sys2Proof/Machine/Jumps.lean ====
section
/-! DEFINITION. JMP, JZ and JNZ (42_jumps.md): they write `pc` and nothing else (R144). -/

namespace Sys2Proof.Machine

/-- A jump that is taken when `taken` holds, and else only advances `pc` (42_jumps.md R141 to R143). -/
def State.jumpIf (s : State) (taken : Bool) (offset16 : Half) : State :=
  if taken then s.setPc (s.jumpTarget offset16) else s.advance

/-- `JMP offset16` (R141). -/
def execJmp (offset16 : Half) (s : State) : Host.Outcome State Fault Refusal := .next (s.jumpIf true offset16)

/-- `JZ offset16` (R142): taken when Z = 1. -/
def execJz (offset16 : Half) (s : State) : Host.Outcome State Fault Refusal := .next (s.jumpIf s.flags.z offset16)

/-- `JNZ offset16` (R143): taken when Z = 0. -/
def execJnz (offset16 : Half) (s : State) : Host.Outcome State Fault Refusal := .next (s.jumpIf (!s.flags.z) offset16)

end Sys2Proof.Machine
end

