-- ==== Sys2Proof/Machine/Flags.lean ====
section
/-! DEFINITION. The flag functions: Z and N (40_move_arith.md R117), C (R118), V (R119), and FLAGS as a 32-bit register
(10_state.md R28). -/

namespace Sys2Proof.Machine

/-- A Bool as one bit. -/
def bitOf (b : Bool) : BitVec 1 := BitVec.ofBool b

/-- FLAGS as a 32-bit value, `zext_32(V ++ C ++ N ++ Z)` (10_state.md R28). -/
def Flags.toWord (f : Flags) : Word :=
  BitVec.zeroExtend 32 (bitOf f.v ++ bitOf f.c ++ bitOf f.n ++ bitOf f.z)

/-- `Z(r)` (40_move_arith.md R117). -/
def flagZ (r : Word) : Bool := r == 0

/-- `N(r) = r[31]` (40_move_arith.md R117). -/
def flagN (r : Word) : Bool := BitVec.getLsbD r 31

/-- C of ADD: bit 32 of the 64-bit sum (40_move_arith.md R118, R113). -/
def carryOfAdd (old src : Word) : Bool :=
  BitVec.getLsbD (BitVec.zeroExtend 64 old + BitVec.zeroExtend 64 src) 32

/-- C of SUB: a borrow, `u32(old) < u32(src)` (40_move_arith.md R118, R115). -/
def borrowOfSub (old src : Word) : Bool := decide (old.toNat < src.toNat)

/-- V of ADD: the operands agree in bit 31 and the result differs from them (40_move_arith.md R119; 93 G2, log 20). -/
def overflowOfAdd (old src result : Word) : Bool :=
  (BitVec.getLsbD old 31 == BitVec.getLsbD src 31) && (BitVec.getLsbD result 31 != BitVec.getLsbD old 31)

/-- V of SUB: the operands differ in bit 31 and the result differs from the minuend (40_move_arith.md R119; 93 G2, log 20). -/
def overflowOfSub (old src result : Word) : Bool :=
  (BitVec.getLsbD old 31 != BitVec.getLsbD src 31) && (BitVec.getLsbD result 31 != BitVec.getLsbD old 31)

/-- The flags after MOV and LOAD write `r`: Z and N from `r`, C and V unchanged (10_state.md R30). -/
def Flags.withZN (f : Flags) (r : Word) : Flags := { f with z := flagZ r, n := flagN r }

/-- The flags after ADD writes `old + src`: all four (10_state.md R30). The old flags are no input (R31). -/
def flagsOfAdd (old src : Word) : Flags :=
  { z := flagZ (old + src), n := flagN (old + src)
    c := carryOfAdd old src, v := overflowOfAdd old src (old + src) }

/-- The flags after SUB writes `old - src`: all four (10_state.md R30). -/
def flagsOfSub (old src : Word) : Flags :=
  { z := flagZ (old - src), n := flagN (old - src)
    c := borrowOfSub old src, v := overflowOfSub old src (old - src) }

end Sys2Proof.Machine
end

