-- ==== Sys2Proof/Machine/LoadStore.lean ====
section
/-! DEFINITION. LOAD and STORE (41_load_store.md). A fault of the access is taken: a next state in which only the run state
has changed (60_exceptions.md R161). -/

namespace Sys2Proof.Machine

/-- `LOAD Rd, [Rs + imm16]` (R131): the base is read before Rd is written; Z and N from the loaded word. -/
def execLoad (rd rs : Reg) (imm16 : Half) (s : State) : Host.Outcome State Fault Refusal :=
  match s.memRead (s.effectiveAddress rs imm16) with
  | .error c => .next (s.enterFault c)
  | .ok v => .next (((s.setReg rd v).setFlags (s.flags.withZN v)).advance)

/-- `STORE Rs, [Rd + imm16]` (R132): `rs` the value, `rd` the base; no register and no flag is written. -/
def execStore (rs rd : Reg) (imm16 : Half) (s : State) : Host.Outcome State Fault Refusal :=
  match s.memWrite (s.effectiveAddress rd imm16) (s.reg rs) with
  | .error c => .next (s.enterFault c)
  | .ok t => .next t.advance

end Sys2Proof.Machine
end

