-- ==== Sys2Proof/Machine/MoveArith.lean ====
section
/-! DEFINITION. MOV, ADD and SUB in both forms (40_move_arith.md). Each form is one line over an operation its two forms
share; the second operand is read before the destination is written (R110). -/

namespace Sys2Proof.Machine

/-- MOV of the value `src` (40_move_arith.md R111, R112): Rd, Z and N; C and V unchanged. -/
def State.moveInto (s : State) (rd : Reg) (src : Word) : State :=
  ((s.setReg rd src).setFlags (s.flags.withZN src)).advance

/-- ADD of the second operand `src` (40_move_arith.md R113, R114). -/
def State.addInto (s : State) (rd : Reg) (src : Word) : State :=
  ((s.setReg rd (s.reg rd + src)).setFlags (flagsOfAdd (s.reg rd) src)).advance

/-- SUB of the second operand `src` (40_move_arith.md R115, R116). -/
def State.subInto (s : State) (rd : Reg) (src : Word) : State :=
  ((s.setReg rd (s.reg rd - src)).setFlags (flagsOfSub (s.reg rd) src)).advance

/-- `MOV Rd, Rs` (R111). -/
def execMovR (rd rs : Reg) (s : State) : Host.Outcome State Fault Refusal := .next (s.moveInto rd (s.reg rs))

/-- `MOV Rd, #imm16` (R112). -/
def execMovI (rd : Reg) (imm16 : Half) (s : State) : Host.Outcome State Fault Refusal :=
  .next (s.moveInto rd (sext32 imm16))

/-- `ADD Rd, Rs` (R113). -/
def execAddR (rd rs : Reg) (s : State) : Host.Outcome State Fault Refusal := .next (s.addInto rd (s.reg rs))

/-- `ADD Rd, #imm16` (R114). -/
def execAddI (rd : Reg) (imm16 : Half) (s : State) : Host.Outcome State Fault Refusal :=
  .next (s.addInto rd (sext32 imm16))

/-- `SUB Rd, Rs` (R115). -/
def execSubR (rd rs : Reg) (s : State) : Host.Outcome State Fault Refusal := .next (s.subInto rd (s.reg rs))

/-- `SUB Rd, #imm16` (R116). -/
def execSubI (rd : Reg) (imm16 : Half) (s : State) : Host.Outcome State Fault Refusal :=
  .next (s.subInto rd (sext32 imm16))

end Sys2Proof.Machine
end

