-- ==== Sys2Proof/Machine/Dispatch.lean ====
section
/-! DEFINITION. The execute phase of 10_state.md R37: one arm per instruction, each one direct call of its meaning. -/

namespace Sys2Proof.Machine

def exec (i : Instr) (s : State) : Host.Outcome State Fault Refusal :=
  match i with
  | .movR rd rs => Sys2Proof.Machine.execMovR rd rs s
  | .movI rd imm16 => Sys2Proof.Machine.execMovI rd imm16 s
  | .addR rd rs => Sys2Proof.Machine.execAddR rd rs s
  | .addI rd imm16 => Sys2Proof.Machine.execAddI rd imm16 s
  | .subR rd rs => Sys2Proof.Machine.execSubR rd rs s
  | .subI rd imm16 => Sys2Proof.Machine.execSubI rd imm16 s
  | .load rd rs imm16 => Sys2Proof.Machine.execLoad rd rs imm16 s
  | .store rs rd imm16 => Sys2Proof.Machine.execStore rs rd imm16 s
  | .jmp offset16 => Sys2Proof.Machine.execJmp offset16 s
  | .jz offset16 => Sys2Proof.Machine.execJz offset16 s
  | .jnz offset16 => Sys2Proof.Machine.execJnz offset16 s
  | .halt => Sys2Proof.Machine.execHalt s

end Sys2Proof.Machine
end

