-- ==== Sys2Proof/Machine/Cycle.lean ====
section
/-! DEFINITION. The instruction cycle (10_state.md R37) under any ARGS_LAYOUT (92_eei_decisions.md D1). -/

namespace Sys2Proof.Machine

/-- The phases after a fetch: decode the word, execute the instruction (10_state.md R37). -/
def decodeAndExecute (L : ArgsLayout) (w : Word) (s : State) : Host.Outcome State Fault Refusal :=
  match decodeWord L s.cfg.strictReserved w with
  | .error _ => .next (s.enterFault (.illegalInstruction w s.pc))
  | .ok i => exec i s

/-- Fetch, decode, execute (10_state.md R37), for a running machine. -/
def runCycle (L : ArgsLayout) (s : State) : Host.Outcome State Fault Refusal :=
  match s.fetch s.pc with
  | .error c => .next (s.enterFault c)
  | .ok w => decodeAndExecute L w s

/-- One step under a layout. It is defined only when `run = RUNNING` (10_state.md R37): HALTED and FAULTED have no step
(43_halt.md R151, 60_exceptions.md R161). A PC that is no multiple of 4 is refused (10_state.md R25). -/
def stepUnder (L : ArgsLayout) (s : State) : Host.Outcome State Fault Refusal :=
  match s.run with
  | .halted => .fault .halted
  | .faulted c => .fault (.faulted c)
  | .running => if aligned s.pc then runCycle L s else .refused (.misalignedPc s.pc)

end Sys2Proof.Machine
end

