-- ==== Sys2Proof/Machine/Step.lean ====
section
/-! DEFINITION. The step of the machine (10_state.md R37) in the default layout, and an instruction placed where the next
step fetches (log 19). -/

namespace Sys2Proof.Machine

/-- One step, in the default ARGS_LAYOUT (92_eei_decisions.md D1). -/
def step (s : State) : Host.Outcome State Fault Refusal := stepUnder .default s

/-- The state with the word `w`, its bits from `nbits` up being 0, stored at `pc` as the hardware stores a word
(30_encoding.md R80); it stands for a load by the host (70_reset_and_hazards.md R184), which does not check MEM_MAP (DESIGN
CHOICE, log 22). -/
def State.withFetchWord (s : State) (nbits w : Nat) : State := s.putWord s.pc (BitVec.ofNat 32 (w % 2 ^ nbits))

end Sys2Proof.Machine
end

