-- ==== Sys2Proof/WellFormed.lean ====
section
/-! DEFINITION. Instructions as they are WRITTEN (30_encoding.md R94), where an operand can be out of range, and the check
that refuses those that are (R95, R86). A term of `Instr` carries its operands in their fields and is always an instruction;
what can be ill-formed is the written one. -/

namespace Sys2Proof

/-- A number as written after `#` or inside `[Rs + imm16]`: decimal, or hexadecimal with the prefix `0x` (30_encoding.md R94). -/
inductive Literal where
  | dec (n : Int)
  | hex (n : Nat)
  deriving DecidableEq, Repr

/-- The number a literal stands for. -/
def Literal.value : Literal → Int
  | .dec n => n
  | .hex n => (n : Int)

/-- The range of a 16-bit signed number, -32768 to +32767 (30_encoding.md R95). -/
def fitsHalf (n : Int) : Bool := decide (-32768 ≤ n) && decide (n ≤ 32767)

/-- The operand of a written jump: a number of words or a label (30_encoding.md R94, R96). -/
inductive JumpOperand where
  | words (n : Int)
  | label (name : List Char)
  deriving DecidableEq, Repr

/-- An instruction as written, operands in the source's order (30_encoding.md R94); a register is the number after `R`. -/
inductive Source where
  | movR (rd rs : Nat)
  | movI (rd : Nat) (imm : Literal)
  | addR (rd rs : Nat)
  | addI (rd : Nat) (imm : Literal)
  | subR (rd rs : Nat)
  | subI (rd : Nat) (imm : Literal)
  | load (rd rs : Nat) (imm : Literal)
  | store (rs rd : Nat) (imm : Literal)
  | jmp (target : JumpOperand)
  | jz (target : JumpOperand)
  | jnz (target : JumpOperand)
  | halt
  deriving DecidableEq, Repr

/-- A line of a program: a label on a line of its own, or an instruction (30_encoding.md R94). -/
inductive Line where
  | label (name : List Char)
  | instr (src : Source)
  deriving DecidableEq, Repr

/-- There are eight registers, R0 to R7 (30_encoding.md R86, R94). -/
def regExists (n : Nat) : Bool := decide (n < 8)

/-- A written jump offset is in range; what a label reaches is checked where labels are resolved (30_encoding.md R95, R96). -/
def JumpOperand.wellFormed : JumpOperand → Bool
  | .words n => fitsHalf n
  | .label _ => true

/-- Every register exists and every number is in range (30_encoding.md R95: "An assembler refuses an operand out of range
and does not truncate it"). -/
def Source.wellFormed : Source → Bool
  | .movR rd rs => regExists rd && regExists rs
  | .movI rd imm => regExists rd && fitsHalf imm.value
  | .addR rd rs => regExists rd && regExists rs
  | .addI rd imm => regExists rd && fitsHalf imm.value
  | .subR rd rs => regExists rd && regExists rs
  | .subI rd imm => regExists rd && fitsHalf imm.value
  | .load rd rs imm => regExists rd && regExists rs && fitsHalf imm.value
  | .store rs rd imm => regExists rs && regExists rd && fitsHalf imm.value
  | .jmp target => target.wellFormed
  | .jz target => target.wellFormed
  | .jnz target => target.wellFormed
  | .halt => true

end Sys2Proof
end

