-- ==== Sys2Proof/Machine/Assembler.lean ====
section
/-! DEFINITION. The pseudo-assembler (30_encoding.md R94 to R96, by example and by decision D19; log 17): a line of text to a
source instruction, labels to word offsets, source instructions to instructions. The source gives no grammar
(91_not_in_source.md N20): a docstring marks DESIGN CHOICE where the model settles a point that R94 to R96 do not. -/

namespace Sys2Proof.Machine

/-! ## From characters to a line (30_encoding.md R94) -/

/-- A word (a mnemonic, register, number or label name) or a single mark. -/
inductive Token where
  | word (cs : List Char)
  | mark (c : Char)
  deriving DecidableEq, Repr

/-- The characters of a word, ASCII letters, digits and the underscore (DESIGN CHOICE, log 17). -/
def isWordChar (c : Char) : Bool := c.isAlphanum || c == '_'

/-- The word read so far, if it has a character; the characters stand in reverse. -/
def flushWord (acc : List Char) : List Token := if acc.isEmpty then [] else [.word acc.reverse]

/-- The tokens of a line; a comment runs from `;` to its end. `acc` is the word read so far, in reverse. White space may
stand between any two tokens, and none is needed beside a mark (DESIGN CHOICE, log 17). -/
def tokensFrom (acc : List Char) : List Char → List Token
  | [] => flushWord acc
  | c :: cs =>
    if isWordChar c then tokensFrom (c :: acc) cs
    else if c == ';' then flushWord acc
    else if c.isWhitespace then flushWord acc ++ tokensFrom [] cs
    else flushWord acc ++ .mark c :: tokensFrom [] cs

/-- The value of a hexadecimal digit. The source shows only digits below A in `0x100`; A to F are taken in both cases
(DESIGN CHOICE, log 17). -/
def hexDigit? (c : Char) : Option Nat :=
  if c.isDigit then some (c.toNat - '0'.toNat)
  else if 'a' ≤ c ∧ c ≤ 'f' then some (c.toNat - 'a'.toNat + 10)
  else if 'A' ≤ c ∧ c ≤ 'F' then some (c.toNat - 'A'.toNat + 10)
  else none

/-- Digits in a base, most significant first, continuing the number `n`. Leading zeros change nothing (DESIGN CHOICE,
log 17). -/
def digitsFrom (base n : Nat) : List Char → Option Nat
  | [] => some n
  | c :: cs =>
    match hexDigit? c with
    | none => none
    | some d => if d < base then digitsFrom base (n * base + d) cs else none

/-- A number with at least one digit. -/
def number? (base : Nat) (cs : List Char) : Option Nat := if cs.isEmpty then none else digitsFrom base 0 cs

/-- `R<n>`, the capital `R` and a decimal number. A register written with leading zeros, `R07`, is the register without
them, `R7` (DESIGN CHOICE, log 17); which numbers exist is `Source.wellFormed`. -/
def register? : List Char → Option Nat
  | 'R' :: cs => number? 10 cs
  | _ => none

/-- An unsigned literal: decimal, or hexadecimal with the prefix `0x`. The prefix is lower-case alone: `0X` is refused
(DESIGN CHOICE, log 17). -/
def unsignedLiteral? : List Char → Option Literal
  | '0' :: 'x' :: cs => (number? 16 cs).map .hex
  | cs => (number? 10 cs).map fun n => .dec n

/-- A literal as tokens: a negative one is written with `-` before digits (30_encoding.md R95). After `-` the digits are
decimal, `-0` is zero, and a literal with `+` is refused (DESIGN CHOICE, log 17). -/
def literal? : List Token → Option Literal
  | [.word cs] => unsignedLiteral? cs
  | [.mark '-', .word cs] => (number? 10 cs).map fun n => .dec (-(n : Int))
  | _ => none

/-- A jump operand: `+` or `-` and a decimal number of words, or a label (30_encoding.md R94). R95 writes a zero offset
`+0`; `-0` is read as zero too, and a label does not start with a digit (DESIGN CHOICE, log 17). -/
def jumpOperand? : List Token → Option JumpOperand
  | [.mark '+', .word cs] => (number? 10 cs).map fun n => .words n
  | [.mark '-', .word cs] => (number? 10 cs).map fun n => .words (-(n : Int))
  | [.word (c :: cs)] => if c.isDigit then none else some (.label (c :: cs))
  | _ => none

/-- The operands `Rd, Rs` or `Rd, #imm16` of MOV, ADD and SUB. -/
def twoForms? (regForm : Nat → Nat → Source) (immForm : Nat → Literal → Source) : List Token → Option Source
  | [.word rd, .mark ',', .word rs] =>
    match register? rd, register? rs with
    | some d, some r => some (regForm d r)
    | _, _ => none
  | .word rd :: .mark ',' :: .mark '#' :: lit =>
    match register? rd, literal? lit with
    | some d, some l => some (immForm d l)
    | _, _ => none
  | _ => none

/-- The literal before the closing bracket. -/
def bracketed? (ts : List Token) : Option Literal :=
  if ts.getLast? = some (.mark ']') then literal? ts.dropLast else none

/-- The operands `Ra, [Rb + imm16]` of LOAD and STORE. The offset and its `+` may not be omitted: `[R1]` is refused
(DESIGN CHOICE, log 17). -/
def memoryForm? (form : Nat → Nat → Literal → Source) : List Token → Option Source
  | .word ra :: .mark ',' :: .mark '[' :: .word rb :: .mark '+' :: rest =>
    match register? ra, register? rb, bracketed? rest with
    | some a, some b, some l => some (form a b l)
    | _, _, _ => none
  | _ => none

/-- An instruction: its mnemonic in capitals, as R94 writes it, then its operands; one in small letters is refused (DESIGN
CHOICE, log 17). There are no pseudo-instructions (30_encoding.md R97). -/
def source? (m : List Char) (operands : List Token) : Option Source :=
  if m = "MOV".toList then twoForms? .movR .movI operands
  else if m = "ADD".toList then twoForms? .addR .addI operands
  else if m = "SUB".toList then twoForms? .subR .subI operands
  else if m = "LOAD".toList then memoryForm? .load operands
  else if m = "STORE".toList then memoryForm? .store operands
  else if m = "JMP".toList then (jumpOperand? operands).map .jmp
  else if m = "JZ".toList then (jumpOperand? operands).map .jz
  else if m = "JNZ".toList then (jumpOperand? operands).map .jnz
  else if m = "HALT".toList then (if operands.isEmpty then some .halt else none)
  else none

/-- A line: nothing but white space and comment (no line of the program), a label on a line of its own, or an
instruction. `none` is a line the notation does not admit. An empty line is admitted, and a label may be spelled as a
mnemonic or a register is (DESIGN CHOICE, log 17). -/
def parseLine (cs : List Char) : Option (List Line) :=
  match tokensFrom [] cs with
  | [] => some []
  | [.word (c :: name), .mark ':'] => if c.isDigit then none else some [.label (c :: name)]
  | .word m :: operands => (source? m operands).map fun src => [.instr src]
  | _ => none

/-! ## Labels and offsets (30_encoding.md R96) -/

/-- A signed number as a 16-bit field, if it is in range: an operand out of range is refused, not truncated (R95). -/
def half? (n : Int) : Option Half := if fitsHalf n then some (BitVec.ofInt 16 n) else none

/-- The register with a number. -/
def reg? (n : Nat) : Option Reg := if h : n < 8 then some ⟨n, h⟩ else none

/-- `offset16 = (L - (A + 4)) / 4`, which must be an integer in range (R96). -/
def labelOffset (jumpAddress labelAddress : Nat) : Option Half :=
  if ((labelAddress : Int) - (jumpAddress + 4)) % 4 = 0 then half? (((labelAddress : Int) - (jumpAddress + 4)) / 4) else none

/-- The address a label stands for, the first line of the list being at byte address `a`; an instruction takes 4 bytes. A
label that stands twice means its first line, and names are compared letter for letter (DESIGN CHOICE, log 17). -/
def labelAddress (name : List Char) : Nat → List Line → Option Nat
  | _, [] => none
  | a, .label n :: ls => if n = name then some a else labelAddress name a ls
  | a, .instr _ :: ls => labelAddress name (a + 4) ls

/-- The offset field of a jump at byte address `a` in a program that starts at address 0. -/
def jumpField (program : List Line) (a : Nat) : JumpOperand → Option Half
  | .words n => half? n
  | .label name => (labelAddress name 0 program).bind (labelOffset a)

/-- The instruction a source instruction at byte address `a` stands for; an ill-formed one has none (R95). -/
def assembleInstr (program : List Line) (a : Nat) : Source → Option Instr
  | .movR rd rs => (reg? rd).bind fun d => (reg? rs).map fun r => .movR d r
  | .movI rd imm => (reg? rd).bind fun d => (half? imm.value).map fun h => .movI d h
  | .addR rd rs => (reg? rd).bind fun d => (reg? rs).map fun r => .addR d r
  | .addI rd imm => (reg? rd).bind fun d => (half? imm.value).map fun h => .addI d h
  | .subR rd rs => (reg? rd).bind fun d => (reg? rs).map fun r => .subR d r
  | .subI rd imm => (reg? rd).bind fun d => (half? imm.value).map fun h => .subI d h
  | .load rd rs imm => (reg? rd).bind fun d => (reg? rs).bind fun r => (half? imm.value).map fun h => .load d r h
  | .store rs rd imm => (reg? rs).bind fun r => (reg? rd).bind fun d => (half? imm.value).map fun h => .store r d h
  | .jmp target => (jumpField program a target).map .jmp
  | .jz target => (jumpField program a target).map .jz
  | .jnz target => (jumpField program a target).map .jnz
  | .halt => some .halt

/-- The instructions of the lines from byte address `a` on, labels being those of the whole program. -/
def assembleFrom (program : List Line) (a : Nat) : List Line → Option (List Instr)
  | [] => some []
  | .label _ :: ls => assembleFrom program a ls
  | .instr src :: ls =>
    (assembleInstr program a src).bind fun i => (assembleFrom program (a + 4) ls).map fun is => i :: is

/-- The program image of an assembly program that starts at address 0, where 70_reset_and_hazards.md R182 loads it (DESIGN
CHOICE, log 17). -/
def assemble (program : List Line) : Option (List Instr) := assembleFrom program 0 program

end Sys2Proof.Machine
end

