-- ==== Sys2Proof/Machine/HostActions.lean ====
section
/-! DEFINITION. What the host does to the CPU (70_reset_and_hazards.md R182, R184): load, launch, run. Reset is
`State.hostReset` (Ops); inspection is reading the fields of a state. -/

namespace Sys2Proof.Machine

/-- Bytes written by the host from address `a` upward (R184 "load"). MEM_MAP is not checked: a byte at an address outside it is
listed too, although INIT_MEM has bytes of MEM_MAP alone (20_memory.md R66), and no step can read it (R52). Addresses run on
modulo 2^32, and a byte loaded twice holds the later value (DESIGN CHOICE, log 22). -/
def State.loadBytes (s : State) (a : Word) : List Byte → State
  | [] => s
  | b :: bs => State.loadBytes (s.writeByte a b) (a + 1) bs

/-- The bytes of a program image, "a sequence of 32-bit instructions" (R182). -/
def imageBytes : List Instr → List Byte
  | [] => []
  | i :: is => encodeBytes i ++ imageBytes is

/-- The launch of a program: the image from address 0, the data elsewhere, then reset (R182). The data are loaded in the
order of the list, after the image and over it where they overlap it (DESIGN CHOICE, log 22). -/
def State.launch (s : State) (image : List Instr) (data : List (Word × List Byte)) : State :=
  (data.foldl (fun t d => t.loadBytes d.1 d.2) (s.loadBytes 0 (imageBytes image))).hostReset

/-- The host's loop: the step repeated until `run` is not RUNNING, at most `n` times (R184 "run"). -/
def runFor (L : ArgsLayout) : Nat → State → Host.Outcome State Fault Refusal
  | 0, s => .next s
  | n + 1, s =>
    if s.run = .running then
      match stepUnder L s with
      | .next t => runFor L n t
      | .fault r => .fault r
      | .refused r => .refused r
    else .next s

end Sys2Proof.Machine
end

