-- ==== Sys2Proof/Safety.lean ====
section
/-! DEFINITION. The terms claims about runs are stated in: the end of a run (70_reset_and_hazards.md R185), reachable states,
the machine's invariants, the renaming of registers under which the machine is the same (10_state.md R21), and what a written
instruction says (30_encoding.md R94 to R96). -/

namespace Sys2Proof.Machine

/-- A run has ended well exactly when `run = HALTED` (70_reset_and_hazards.md R185). -/
def State.endedWell (s : State) : Prop := s.run = .halted

/-- A run has ended badly when it reached FAULTED (70_reset_and_hazards.md R185). -/
def State.endedBadly (s : State) : Prop := ∃ c, s.run = .faulted c

/-- `t` comes after `s` by steps of the machine. -/
inductive Reaches : State → State → Prop where
  | refl (s : State) : Reaches s s
  | tail {s t u : State} : Reaches s t → step t = .next u → Reaches s u

/-- A launch state (70_reset_and_hazards.md R182): what the host's reset leaves, over any memory in canonical form, with bytes
outside MEM_MAP or without (log 22). -/
def State.isLaunch (s : State) : Prop := ∃ s₀ : State, Memory.wf s₀.mem = true ∧ s = s₀.hostReset

/-- PC is a multiple of 4 (10_state.md R25). -/
def State.pcAligned (s : State) : Prop := s.pc.toNat % 4 = 0

/-- What every state of a run from a launch state satisfies: memory in canonical form, PC a multiple of 4 (10_state.md R25),
and SP = 0 (10_state.md R27). FLAGS is below 16 in every state whatever (10_state.md R29). -/
structure State.Inv (s : State) : Prop where
  mem_wf : Memory.wf s.mem = true
  pc_aligned : s.pcAligned
  sp_zero : s.sp = 0

/-- The general register an instruction writes when it completes (10_state.md R22): MOV, ADD, SUB and LOAD write Rd; STORE,
the jumps and HALT write none. -/
def destReg : Instr → Option Reg
  | .movR rd _ => some rd
  | .movI rd _ => some rd
  | .addR rd _ => some rd
  | .addI rd _ => some rd
  | .subR rd _ => some rd
  | .subI rd _ => some rd
  | .load rd _ _ => some rd
  | .store _ _ _ => none
  | .jmp _ => none
  | .jz _ => none
  | .jnz _ => none
  | .halt => none

/-- The general registers an instruction reads (10_state.md R22): Rs of the register forms and of LOAD, Rd of ADD and SUB
too, both of STORE. -/
def readRegs : Instr → List Reg
  | .movR _ rs => [rs]
  | .movI _ _ => []
  | .addR rd rs => [rd, rs]
  | .addI rd _ => [rd]
  | .subR rd rs => [rd, rs]
  | .subI rd _ => [rd]
  | .load _ rs _ => [rs]
  | .store rs rd _ => [rs, rd]
  | .jmp _ => []
  | .jz _ => []
  | .jnz _ => []
  | .halt => []

/-- The outcome with `f` done to its next state. -/
def mapNext (f : State → State) : Host.Outcome State Fault Refusal → Host.Outcome State Fault Refusal
  | .next t => .next (f t)
  | .fault r => .fault r
  | .refused r => .refused r

/-- The instruction with its registers renamed. -/
def renameInstr (p : Equiv.Perm Reg) : Instr → Instr
  | .movR rd rs => .movR (p rd) (p rs)
  | .movI rd imm16 => .movI (p rd) imm16
  | .addR rd rs => .addR (p rd) (p rs)
  | .addI rd imm16 => .addI (p rd) imm16
  | .subR rd rs => .subR (p rd) (p rs)
  | .subI rd imm16 => .subI (p rd) imm16
  | .load rd rs imm16 => .load (p rd) (p rs) imm16
  | .store rs rd imm16 => .store (p rs) (p rd) imm16
  | .jmp offset16 => .jmp offset16
  | .jz offset16 => .jz offset16
  | .jnz offset16 => .jnz offset16
  | .halt => .halt

/-- The state in which register `p r` holds what `r` holds in `s`. -/
def renameState (p : Equiv.Perm Reg) (s : State) : State :=
  { s with regs := Vector.ofFn fun r => s.reg (p.symm r) }

/-- The offset a written jump operand says, at byte address `a` of a program: the number of words itself, or the one that
takes the jump to the address of the label (30_encoding.md R95, R96). -/
def offsetSays (program : List Line) (a : Nat) (target : JumpOperand) (offset16 : Half) : Prop :=
  match target with
  | .words n => offset16.toInt = n
  | .label name => ∃ l : Nat, labelAddress name 0 program = some l ∧ (l : Int) = (a : Int) + 4 + 4 * offset16.toInt

/-- A written instruction at byte address `a` of a program says an instruction: the same mnemonic and form, the same
register numbers, the same number (30_encoding.md R94 to R96). -/
def sourceSays (program : List Line) (a : Nat) (src : Source) (i : Instr) : Prop :=
  match src with
  | .movR rd rs => ∃ d r : Reg, d.val = rd ∧ r.val = rs ∧ i = .movR d r
  | .movI rd imm => ∃ (d : Reg) (h : Half), d.val = rd ∧ h.toInt = imm.value ∧ i = .movI d h
  | .addR rd rs => ∃ d r : Reg, d.val = rd ∧ r.val = rs ∧ i = .addR d r
  | .addI rd imm => ∃ (d : Reg) (h : Half), d.val = rd ∧ h.toInt = imm.value ∧ i = .addI d h
  | .subR rd rs => ∃ d r : Reg, d.val = rd ∧ r.val = rs ∧ i = .subR d r
  | .subI rd imm => ∃ (d : Reg) (h : Half), d.val = rd ∧ h.toInt = imm.value ∧ i = .subI d h
  | .load rd rs imm => ∃ (d r : Reg) (h : Half), d.val = rd ∧ r.val = rs ∧ h.toInt = imm.value ∧ i = .load d r h
  | .store rs rd imm => ∃ (r d : Reg) (h : Half), r.val = rs ∧ d.val = rd ∧ h.toInt = imm.value ∧ i = .store r d h
  | .jmp target => ∃ h : Half, offsetSays program a target h ∧ i = .jmp h
  | .jz target => ∃ h : Half, offsetSays program a target h ∧ i = .jz h
  | .jnz target => ∃ h : Half, offsetSays program a target h ∧ i = .jnz h
  | .halt => i = .halt

end Sys2Proof.Machine
end

