-- ==== Sys2Proof/Certificates/Slice0/Obligations.lean ====
section
/-! DEFINITION. The statements for the provers, from the numbered rules of spec/. A docstring that names a log entry or a
decision D<n> says that the statement rests on a choice that is not the source's. -/

open Sys2Proof Sys2Proof.Machine

/-! ## Encoding (30_encoding.md) -/

/-- Decoding an encoded instruction gives it back, strict or not, as a word and as bytes (R93, R98; the layout is D1 to D3,
log 1). -/
def Obligations.EncodedInstructionsDecodeBack : Prop :=
  ∀ (strict : Bool) (i : Instr) (rest : List Byte),
    decodeWord .default strict (encode i) = .ok i ∧
    decodeBytes .default strict (encodeBytes i ++ rest) = .ok (i, rest)

/-- With STRICT_RESERVED every word has at most one reading: a word that decodes is the encoding of what it decodes to
(R93, R98; log 1, 2). -/
def Obligations.StrictlyDecodedWordsAreEncodings : Prop :=
  ∀ (w : Word) (i : Instr), decodeWord .default true w = .ok i → encode i = w

/-- With STRICT_RESERVED a word is an instruction exactly when it agrees with the match and mask of a row of the opcode
table (opcode_table.json, R89, R91; log 1, 2). -/
def Obligations.StrictDecoderAcceptsTheTableRows : Prop :=
  ∀ w : Word, (∃ i, decodeWord .default true w = .ok i) ↔ ∃ row ∈ opcodeRows, row.matchesWord w = true

/-- With STRICT_RESERVED = false the unused bits are ignored: a word reads as the strict decoder reads it with its unused
bits cleared, every word with a defined opcode is an instruction, and a word that is one strictly is the same one (R89, R93;
D4, log 2; the layout is log 1). -/
def Obligations.LaxDecoderIgnoresUnusedBits : Prop :=
  ∀ w : Word,
    decodeWord .default false w = decodeWord .default true (w &&& usedBits w) ∧
    ((∃ i, decodeWord .default false w = .ok i) ↔ opcodeField w ∈ [1, 2, 3, 4, 5, 6, 7, 8, 0xFF]) ∧
    ∀ i, decodeWord .default true w = .ok i → decodeWord .default false w = .ok i

/-- The opcode values 0x00 and 0x09 to 0xFE select no instruction, in every layout (R90; D5, log 3). -/
def Obligations.UndefinedOpcodesAreIllegal : Prop :=
  ∀ (L : ArgsLayout) (strict : Bool) (w : Word),
    (opcodeField w = 0 ∨ 9 ≤ (opcodeField w).toNat ∧ (opcodeField w).toNat ≤ 0xFE) →
    decodeWord L strict w = .error (.undefinedOpcode (opcodeField w))

/-- Whatever the layout of the argument bits, if it answers an instruction of the mnemonic it is asked for, the opcode byte
of a word fixes its instruction by the opcode map (R81, R83). -/
def Obligations.OpcodeByteFixesTheInstruction : Prop :=
  ∀ (L : ArgsLayout) (strict : Bool) (w : Word) (i : Instr),
    (∀ m, L.decode strict m (argsField w) = some i → i.mnemonic = m) → decodeWord L strict w = .ok i →
    w.toNat / 2 ^ 24 =
      match i with
      | .movR _ _ => 1
      | .movI _ _ => 1
      | .addR _ _ => 2
      | .addI _ _ => 2
      | .subR _ _ => 3
      | .subI _ _ => 3
      | .load _ _ _ => 4
      | .store _ _ _ => 5
      | .jmp _ => 6
      | .jz _ => 7
      | .jnz _ => 8
      | .halt => 0xFF

/-- The default layout obeys the round-trip law asked of a layout (note on D1 in 92_eei_decisions.md; log 1). -/
def Obligations.DefaultLayoutIsLawful : Prop := ArgsLayout.default.Lawful

/-- The words of the encoder's examples decode to the instructions they stand for (R98; log 1). -/
def Obligations.ExampleWordsDecode : Prop :=
  decodeWord .default true 0x01800005 = .ok (.movI 0 5) ∧
  decodeWord .default true 0x01100000 = .ok (.movR 1 0) ∧
  decodeWord .default true 0x02010000 = .ok (.addR 0 1) ∧
  decodeWord .default true 0x03800001 = .ok (.subI 0 1) ∧
  decodeWord .default true 0x04010004 = .ok (.load 0 1 4) ∧
  decodeWord .default true 0x05230000 = .ok (.store 3 2 0) ∧
  decodeWord .default true 0x0600FFFE = .ok (.jmp 0xFFFE) ∧
  decodeWord .default true 0x07000003 = .ok (.jz 3) ∧
  decodeWord .default true 0x0800FFFF = .ok (.jnz 0xFFFF) ∧
  decodeWord .default true 0xFF000000 = .ok .halt

/-! ## The step (10_state.md R37) -/

/-- When the bytes at `pc` decode to `i`, the step of a running machine is `exec i`, in any layout; `step` is that of the
default layout. The step does nothing around `exec`. -/
def Obligations.StepRunsTheDecodedInstruction : Prop :=
  ∀ (L : ArgsLayout) (s : State) (i : Instr),
    s.run = .running → s.pc.toNat % 4 = 0 → s.backed s.pc = true →
    decodeWord L s.cfg.strictReserved
      (wordOfBytes (s.readByte s.pc) (s.readByte (s.pc + 1)) (s.readByte (s.pc + 2)) (s.readByte (s.pc + 3))) = .ok i →
    stepUnder L s = exec i s ∧ (L = .default → step s = exec i s)

/-- The machine runs what a layout encodes, for every layout and instruction that obey the round-trip law: no meaning
depends on the layout (R84; D1, log 1). -/
def Obligations.EveryLayoutRunsWhatItEncodes : Prop :=
  ∀ (L : ArgsLayout) (s : State) (i : Instr),
    L.decode s.cfg.strictReserved i.mnemonic (L.encode i) = some i →
    s.run = .running → s.pc.toNat % 4 = 0 → s.backed s.pc = true → s.wordAt s.pc = encodeWith L i →
    stepUnder L s = exec i s

/-- A word that is no instruction takes IllegalInstruction with the word and the pc (R163, R161; D4, D5, D11, log 3, 10). -/
def Obligations.IllegalWordTakesTheFault : Prop :=
  ∀ (L : ArgsLayout) (s : State) (e : DecodeError),
    s.run = .running → s.pc.toNat % 4 = 0 → s.backed s.pc = true →
    decodeWord L s.cfg.strictReserved (s.wordAt s.pc) = .error e →
    stepUnder L s = .next { s with run := .faulted (.illegalInstruction (s.wordAt s.pc) s.pc) }

/-- A fetch of a word not wholly in MEM_MAP takes BusError with the pc, before any decoding (R165, R166; D7, D17, log 6, 15). -/
def Obligations.UnbackedFetchTakesBusError : Prop :=
  ∀ (L : ArgsLayout) (s : State),
    s.run = .running → s.pc.toNat % 4 = 0 → s.backed s.pc = false →
    stepUnder L s = .next { s with run := .faulted (.busError s.pc .fetch) }

/-- After HALT the registers are as they were; a halted machine has no step and the host's loop leaves it as it is; a run
has ended well exactly when `run = HALTED` (R151, R184 to R186). That the step answers the named stop `halted`, and that the
host's loop leaves the state, is D16 (log 11). -/
def Obligations.HaltedStateIsFinal : Prop :=
  (∀ s t : State, exec .halt s = .next t →
    t.run = .halted ∧ (∀ q, t.reg q = s.reg q) ∧ t.pc = s.pc ∧ t.sp = s.sp ∧ t.flags = s.flags) ∧
  (∀ s : State, s.run = .halted →
    step s = .fault .halted ∧ (∀ t, step s ≠ .next t) ∧ ∀ n, runFor .default n s = .next s) ∧
  (∀ s : State, s.endedWell ↔ s.run = .halted)

/-- A faulted machine has no step (R161; D11, log 11). -/
def Obligations.FaultedStateHasNoStep : Prop :=
  ∀ (L : ArgsLayout) (s : State) (c : FaultCause), s.run = .faulted c → stepUnder L s = .fault (.faulted c)

/-- A running state whose PC is no multiple of 4 is refused, as "a model refuses such a launch state" (R25; D6, log 5). -/
def Obligations.MisalignedPcIsRefused : Prop :=
  ∀ (L : ArgsLayout) (s : State), s.run = .running → s.pc.toNat % 4 ≠ 0 → stepUnder L s = .refused (.misalignedPc s.pc)

/-- Faults are precise: a step that ends FAULTED has changed nothing but the run state (R161; D11, log 10). -/
def Obligations.FaultsArePrecise : Prop :=
  ∀ (L : ArgsLayout) (s t : State) (c : FaultCause), stepUnder L s = .next t → t.run = .faulted c →
    t = { s with run := .faulted c }

/-- The fault causes are complete, each under its condition and in the order of priority (R162, R166; D11, D17, log 10, 15). -/
def Obligations.FaultCausesAreComplete : Prop :=
  ∀ (L : ArgsLayout) (s t : State) (c : FaultCause), stepUnder L s = .next t → t.run = .faulted c →
    (s.backed s.pc = false ∧ c = .busError s.pc .fetch) ∨
    (s.backed s.pc = true ∧ (∃ e, decodeWord L s.cfg.strictReserved (s.wordAt s.pc) = .error e) ∧
      c = .illegalInstruction (s.wordAt s.pc) s.pc) ∨
    (s.backed s.pc = true ∧ ∃ (i : Instr) (ea : Word) (d : DataAccess),
      decodeWord L s.cfg.strictReserved (s.wordAt s.pc) = .ok i ∧
      ((∃ rd rs imm16, i = .load rd rs imm16 ∧ d = .load ∧ ea = s.reg rs + BitVec.signExtend 32 imm16) ∨
       (∃ rs rd imm16, i = .store rs rd imm16 ∧ d = .store ∧ ea = s.reg rd + BitVec.signExtend 32 imm16)) ∧
      ((s.cfg.misaligned = .fault ∧ ea.toNat % 4 ≠ 0 ∧ c = .misalignedAccess ea d) ∨
       ((s.cfg.misaligned = .bytewise ∨ ea.toNat % 4 = 0) ∧ s.backed ea = false ∧ c = .busError ea (.data d))))

/-- With MEM_MAP equal to the whole address space BusError is never raised (R165; D7, log 6). -/
def Obligations.FullMemoryMapNeverRaisesBusError : Prop :=
  ∀ (L : ArgsLayout) (s t : State) (a : Word) (k : Access),
    (∀ x : Word, inMemMap s.cfg x = true) → stepUnder L s = .next t → t.run ≠ .faulted (.busError a k)

/-- HALT is the only way to the halted state: a step that ends HALTED executed a HALT, and changed nothing else (R150, R152). -/
def Obligations.OnlyHaltHalts : Prop :=
  ∀ (L : ArgsLayout) (s t : State), stepUnder L s = .next t → t.run = .halted →
    decodeWord L s.cfg.strictReserved (s.wordAt s.pc) = .ok .halt ∧ t = { s with run := .halted }

/-- No instruction stops the model: each answers a next state from every state, and where a LOAD or STORE raises a fault that
state is the one after taking it. That a fault is taken as a next state is the model's reading of D11 (log 10). -/
def Obligations.EveryInstructionAnswersANextState : Prop :=
  ∀ (i : Instr) (s : State),
    (∃ t, exec i s = .next t) ∧
    ∀ (ra rb : Reg) (imm16 : Half) (d : DataAccess) (c : FaultCause),
      (i = .load ra rb imm16 ∧ d = .load) ∨ (i = .store ra rb imm16 ∧ d = .store) →
      s.dataFault (s.effectiveAddress rb imm16) d = some c → exec i s = .next (s.enterFault c)

/-! ## What each instruction does (files 40 to 43): each statement says that the instruction completes, where, and with what -/

/-- MOV, both forms (R111, R112): Rd, Z and N from the value moved, C and V unchanged, pc + 4, nothing else. -/
def Obligations.MovCopiesItsOperand : Prop :=
  ∀ (s : State) (rd rs : Reg) (imm16 : Half) (i : Instr) (src : Word),
    (i = .movR rd rs ∧ src = s.reg rs) ∨ (i = .movI rd imm16 ∧ src = BitVec.signExtend 32 imm16) →
    ∃ t, exec i s = .next t ∧
      (∀ q, t.reg q = if q = rd then src else s.reg q) ∧
      (t.flags.z = true ↔ src = 0) ∧ (t.flags.n = true ↔ 2 ^ 31 ≤ src.toNat) ∧
      t.flags.c = s.flags.c ∧ t.flags.v = s.flags.v ∧
      t.pc = s.pc + 4 ∧ t.sp = s.sp ∧ t.run = s.run ∧ t.cfg = s.cfg ∧ ∀ a, t.readByte a = s.readByte a

/-- ADD, both forms (R113, R114): the sum modulo 2^32; C is the carry out of bit 31; V, by the two's-complement reading
(R119 from general knowledge, 93 G1, G2, log 20), is the signed sum out of range; pc + 4, nothing else. -/
def Obligations.AddGivesSumAndFlags : Prop :=
  ∀ (s : State) (rd rs : Reg) (imm16 : Half) (i : Instr) (src : Word),
    (i = .addR rd rs ∧ src = s.reg rs) ∨ (i = .addI rd imm16 ∧ src = BitVec.signExtend 32 imm16) →
    ∃ t, exec i s = .next t ∧
      (∀ q, t.reg q = if q = rd then s.reg rd + src else s.reg q) ∧
      (t.flags.z = true ↔ ((s.reg rd).toNat + src.toNat) % 2 ^ 32 = 0) ∧
      (t.flags.n = true ↔ 2 ^ 31 ≤ ((s.reg rd).toNat + src.toNat) % 2 ^ 32) ∧
      (t.flags.c = true ↔ 2 ^ 32 ≤ (s.reg rd).toNat + src.toNat) ∧
      (t.flags.v = true ↔ (s.reg rd).toInt + src.toInt < -2 ^ 31 ∨ 2 ^ 31 ≤ (s.reg rd).toInt + src.toInt) ∧
      t.pc = s.pc + 4 ∧ t.sp = s.sp ∧ t.run = s.run ∧ t.cfg = s.cfg ∧ ∀ a, t.readByte a = s.readByte a

/-- SUB, both forms (R115, R116): the difference modulo 2^32; C is the borrow; V, by the two's-complement reading (R119 from
general knowledge, 93 G1, G2, log 20), is the signed difference out of range; pc + 4, nothing else. -/
def Obligations.SubGivesDifferenceAndFlags : Prop :=
  ∀ (s : State) (rd rs : Reg) (imm16 : Half) (i : Instr) (src : Word),
    (i = .subR rd rs ∧ src = s.reg rs) ∨ (i = .subI rd imm16 ∧ src = BitVec.signExtend 32 imm16) →
    ∃ t, exec i s = .next t ∧
      (∀ q, t.reg q = if q = rd then s.reg rd - src else s.reg q) ∧
      (t.flags.z = true ↔ s.reg rd = src) ∧
      (t.flags.n = true ↔ 2 ^ 31 ≤ (s.reg rd - src).toNat) ∧
      (t.flags.c = true ↔ (s.reg rd).toNat < src.toNat) ∧
      (t.flags.v = true ↔ (s.reg rd).toInt - src.toInt < -2 ^ 31 ∨ 2 ^ 31 ≤ (s.reg rd).toInt - src.toInt) ∧
      t.pc = s.pc + 4 ∧ t.sp = s.sp ∧ t.run = s.run ∧ t.cfg = s.cfg ∧ ∀ a, t.readByte a = s.readByte a

/-- LOAD (R131) of a backed word at an address that is a multiple of 4 or under MISALIGNED_POLICY = bytewise (D6, D7, log 4,
6): the little-endian word, Z and N from it, C and V unchanged, pc + 4, nothing else. -/
def Obligations.LoadReadsTheWord : Prop :=
  ∀ (s : State) (rd rs : Reg) (imm16 : Half) (ea v : Word),
    ea = s.reg rs + BitVec.signExtend 32 imm16 →
    v = s.readByte (ea + 3) ++ s.readByte (ea + 2) ++ s.readByte (ea + 1) ++ s.readByte ea →
    (s.cfg.misaligned = .bytewise ∨ ea.toNat % 4 = 0) → s.backed ea = true →
    ∃ t, exec (.load rd rs imm16) s = .next t ∧
      (∀ q, t.reg q = if q = rd then v else s.reg q) ∧
      (t.flags.z = true ↔ v = 0) ∧ (t.flags.n = true ↔ 2 ^ 31 ≤ v.toNat) ∧
      t.flags.c = s.flags.c ∧ t.flags.v = s.flags.v ∧
      t.pc = s.pc + 4 ∧ t.sp = s.sp ∧ t.run = s.run ∧ t.cfg = s.cfg ∧ ∀ a, t.readByte a = s.readByte a

/-- STORE (R132) of a backed word at an address that is a multiple of 4 or under MISALIGNED_POLICY = bytewise (D6, D7, log 4,
6): the four bytes little-endian at the effective address, no other byte, no register, no flag, pc + 4. -/
def Obligations.StoreWritesTheWord : Prop :=
  ∀ (s : State) (rs rd : Reg) (imm16 : Half) (ea : Word),
    ea = s.reg rd + BitVec.signExtend 32 imm16 →
    (s.cfg.misaligned = .bytewise ∨ ea.toNat % 4 = 0) → s.backed ea = true →
    ∃ t, exec (.store rs rd imm16) s = .next t ∧
      t.readByte ea = BitVec.extractLsb' 0 8 (s.reg rs) ∧ t.readByte (ea + 1) = BitVec.extractLsb' 8 8 (s.reg rs) ∧
      t.readByte (ea + 2) = BitVec.extractLsb' 16 8 (s.reg rs) ∧ t.readByte (ea + 3) = BitVec.extractLsb' 24 8 (s.reg rs) ∧
      (∀ a, a ≠ ea → a ≠ ea + 1 → a ≠ ea + 2 → a ≠ ea + 3 → t.readByte a = s.readByte a) ∧
      (∀ q, t.reg q = s.reg q) ∧ t.flags = s.flags ∧
      t.pc = s.pc + 4 ∧ t.sp = s.sp ∧ t.run = s.run ∧ t.cfg = s.cfg

/-- JMP (R141): pc + 4 + (sext_32(offset16) << 2), and nothing else. -/
def Obligations.JmpGoesToItsTarget : Prop :=
  ∀ (s : State) (offset16 : Half),
    exec (.jmp offset16) s = .next { s with pc := s.pc + 4 + (BitVec.signExtend 32 offset16 <<< (2 : Nat)) }

/-- JZ and JNZ (R142, R143): to the target when Z = 1, respectively Z = 0, else to pc + 4, and nothing else. -/
def Obligations.ConditionalJumpsTestZ : Prop :=
  ∀ (s : State) (offset16 : Half),
    exec (.jz offset16) s =
      .next { s with pc := if s.flags.z = true then s.pc + 4 + (BitVec.signExtend 32 offset16 <<< (2 : Nat)) else s.pc + 4 } ∧
    exec (.jnz offset16) s =
      .next { s with pc := if s.flags.z = false then s.pc + 4 + (BitVec.signExtend 32 offset16 <<< (2 : Nat)) else s.pc + 4 }

/-- HALT (R150): the run state becomes HALTED and nothing else changes, pc included. -/
def Obligations.HaltOnlySetsTheRunState : Prop :=
  ∀ s : State, exec .halt s = .next { s with run := .halted }

/-- LOAD and STORE at an address that is no multiple of 4 take MisalignedAccess under the default policy, whether or not the
word is backed (R164, R166; D6, D17, log 4, 15). -/
def Obligations.MisalignedDataAccessTakesTheFault : Prop :=
  ∀ (s : State) (ra rb : Reg) (imm16 : Half) (ea : Word),
    ea = s.reg rb + BitVec.signExtend 32 imm16 → s.cfg.misaligned = .fault → ea.toNat % 4 ≠ 0 →
    exec (.load ra rb imm16) s = .next { s with run := .faulted (.misalignedAccess ea .load) } ∧
    exec (.store ra rb imm16) s = .next { s with run := .faulted (.misalignedAccess ea .store) }

/-- LOAD and STORE of a word not wholly in MEM_MAP take BusError when they raise no MisalignedAccess (R165, R166; D7, D17,
log 6, 15). -/
def Obligations.UnbackedDataAccessTakesBusError : Prop :=
  ∀ (s : State) (ra rb : Reg) (imm16 : Half) (ea : Word),
    ea = s.reg rb + BitVec.signExtend 32 imm16 → (s.cfg.misaligned = .bytewise ∨ ea.toNat % 4 = 0) → s.backed ea = false →
    exec (.load ra rb imm16) s = .next { s with run := .faulted (.busError ea (.data .load)) } ∧
    exec (.store ra rb imm16) s = .next { s with run := .faulted (.busError ea (.data .store)) }

/-! ## Frames -/

/-- The frame of MOV, ADD and SUB in both forms: every register but Rd, C and V for MOV, SP, the run state, the parameters
and every byte of memory are unchanged (R22, R30). -/
def Obligations.FrameOfMovAddSub : Prop :=
  ∀ (s t : State) (i : Instr) (rd rs : Reg) (imm16 : Half),
    i ∈ [.movR rd rs, .movI rd imm16, .addR rd rs, .addI rd imm16, .subR rd rs, .subI rd imm16] → exec i s = .next t →
    (∀ q, q ≠ rd → t.reg q = s.reg q) ∧
    (i.mnemonic = .mov → t.flags.c = s.flags.c ∧ t.flags.v = s.flags.v) ∧
    t.sp = s.sp ∧ t.run = s.run ∧ t.cfg = s.cfg ∧ ∀ a, t.readByte a = s.readByte a

/-- The frame of LOAD: every register but Rd, C, V, SP, the parameters and every byte of memory are unchanged; the run state
too, unless the access faults, and then nothing else has changed (R131, R161; D11, log 10). -/
def Obligations.FrameOfLoad : Prop :=
  ∀ (s t : State) (rd rs : Reg) (imm16 : Half), exec (.load rd rs imm16) s = .next t →
    (∀ q, q ≠ rd → t.reg q = s.reg q) ∧ t.flags.c = s.flags.c ∧ t.flags.v = s.flags.v ∧
    t.sp = s.sp ∧ t.cfg = s.cfg ∧ (∀ a, t.readByte a = s.readByte a) ∧
    (t.run = s.run ∨ ∃ c, t = { s with run := .faulted c })

/-- The frame of STORE: every register, FLAGS, SP, the parameters and every byte outside the four at the effective address
are unchanged; the run state too, unless the access faults, and then nothing else has changed (R132, R161; D11, log 10). -/
def Obligations.FrameOfStore : Prop :=
  ∀ (s t : State) (rs rd : Reg) (imm16 : Half), exec (.store rs rd imm16) s = .next t →
    (∀ q, t.reg q = s.reg q) ∧ t.flags = s.flags ∧ t.sp = s.sp ∧ t.cfg = s.cfg ∧
    (∀ ea a, ea = s.effectiveAddress rd imm16 → a ≠ ea → a ≠ ea + 1 → a ≠ ea + 2 → a ≠ ea + 3 →
      t.readByte a = s.readByte a) ∧
    (t.run = s.run ∨ ∃ c, t = { s with run := .faulted c })

/-- The frame of JMP, JZ, JNZ and HALT: registers, FLAGS, SP, the parameters and memory are unchanged; the jumps keep the run
state and HALT keeps pc (R144, R150). -/
def Obligations.FrameOfJumpsAndHalt : Prop :=
  ∀ (s t : State) (i : Instr) (offset16 : Half), i ∈ [.jmp offset16, .jz offset16, .jnz offset16, .halt] → exec i s = .next t →
    (∀ q, t.reg q = s.reg q) ∧ t.flags = s.flags ∧ t.sp = s.sp ∧ t.cfg = s.cfg ∧ (∀ a, t.readByte a = s.readByte a) ∧
    (i ≠ .halt → t.run = s.run) ∧ (i = .halt → t.pc = s.pc)

/-- Registers written and read (R22). A general register changes in a step only if the step decoded an instruction that names
it as its destination. A register an instruction neither reads nor writes has no part in it: with another value there,
everything else comes out the same. A destination that is not read first (MOV, LOAD) has no part in what completes. -/
def Obligations.RegistersWrittenAndRead : Prop :=
  (∀ (L : ArgsLayout) (s t : State) (q : Reg), stepUnder L s = .next t → t.reg q ≠ s.reg q →
    ∃ i, decodeWord L s.cfg.strictReserved (s.wordAt s.pc) = .ok i ∧ destReg i = some q) ∧
  (∀ (i : Instr) (s : State) (q : Reg) (v : Word), q ∉ readRegs i → destReg i ≠ some q →
    exec i (s.setReg q v) = mapNext (fun t => t.setReg q v) (exec i s)) ∧
  (∀ (i : Instr) (s t : State) (q : Reg) (v : Word), q ∉ readRegs i → destReg i = some q →
    exec i s = .next t → (∀ c, t ≠ s.enterFault c) → exec i (s.setReg q v) = .next t)

/-- A byte of memory changes in a step only if the step decoded a STORE whose four bytes it is one of (R36, R55). -/
def Obligations.OnlyStoreChangesMemory : Prop :=
  ∀ (L : ArgsLayout) (s t : State) (a : Word), stepUnder L s = .next t → t.readByte a ≠ s.readByte a →
    ∃ rs rd imm16, decodeWord L s.cfg.strictReserved (s.wordAt s.pc) = .ok (.store rs rd imm16) ∧
      (a - (s.reg rd + BitVec.signExtend 32 imm16)).toNat < 4

/-- No step changes SP or the parameters (R27, R5; log 18). -/
def Obligations.NoStepChangesSpOrParameters : Prop :=
  ∀ (L : ArgsLayout) (s t : State), stepUnder L s = .next t → t.sp = s.sp ∧ t.cfg = s.cfg

/-! ## Invariants -/

/-- Every step keeps the invariant: memory in canonical form (the model's, log 7), PC a multiple of 4 (R25), SP = 0 (R27). -/
def Obligations.StepKeepsTheInvariant : Prop :=
  ∀ (L : ArgsLayout) (s t : State), s.Inv → stepUnder L s = .next t → t.Inv

/-- Reset meets the invariant, and so does every launch state, whatever the host loaded (R180, R182; the canonical form of
memory is the model's, log 7). -/
def Obligations.ResetMeetsTheInvariant : Prop :=
  State.reset.Inv ∧ ∀ s : State, s.isLaunch → s.Inv

/-- Every state of a run from any launch state meets the invariant, and so its step is never refused (R25, R27). The canonical
form of memory is the model's (log 7), and so is the refusal of a misaligned PC (D6, log 5). -/
def Obligations.ReachableStatesMeetTheInvariant : Prop :=
  ∀ s t : State, s.isLaunch → Reaches s t → t.Inv ∧ ∀ r, step t ≠ .refused r

/-- FLAGS holds Z, N, C, V with weights 1, 2, 4, 8 and is below 16 in every state; it is 0 after reset (R28, R29). -/
def Obligations.FlagsOccupyTheLowFourBits : Prop :=
  (∀ s : State,
    s.flags.toWord =
      BitVec.zeroExtend 32 (BitVec.ofBool s.flags.v ++ BitVec.ofBool s.flags.c ++ BitVec.ofBool s.flags.n ++ BitVec.ofBool s.flags.z) ∧
    s.flags.toWord.toNat = s.flags.z.toNat + 2 * s.flags.n.toNat + 4 * s.flags.c.toNat + 8 * s.flags.v.toNat ∧
    s.flags.toWord.toNat < 16) ∧
  State.reset.flags.toWord = 0

/-! ## Reset and the host -/

/-- The host's reset, from any state, zeroes R0 to R7, PC, SP and FLAGS, sets RUNNING (D15, log 14), and keeps memory and
parameters (R180, R181, R186); `State.reset` is that of a machine with nothing loaded (log 6, 18 for its parameters). -/
def Obligations.HostResetInstallsTheResetState : Prop :=
  (∀ s : State,
    (∀ q, s.hostReset.reg q = 0) ∧ s.hostReset.pc = 0 ∧ s.hostReset.sp = 0 ∧ s.hostReset.flags.toWord = 0 ∧
    s.hostReset.run = .running ∧ s.hostReset.cfg = s.cfg ∧ ∀ a, s.hostReset.readByte a = s.readByte a) ∧
  State.reset.hostReset = State.reset

/-- The first step of a launched program executes its first instruction (R182): the image is loaded from address 0, and data
anywhere but over that first word (the layout of the image is log 1, the kept memory log 14). -/
def Obligations.LaunchRunsTheFirstInstruction : Prop :=
  ∀ (s : State) (i : Instr) (is : List Instr) (data : List (Word × List Byte)),
    is.length < 2 ^ 30 - 1 → s.backed 0 = true →
    (∀ d ∈ data, ∀ k, k < d.2.length → 4 ≤ (d.1 + BitVec.ofNat 32 k).toNat) →
    step (s.launch (i :: is) data) = exec i (s.launch (i :: is) data)

/-- Once the host's loop has reached HALTED, running it longer changes nothing (R151, R184, R186; D16, log 11). -/
def Obligations.HaltedRunsStayHalted : Prop :=
  ∀ (L : ArgsLayout) (n k : Nat) (s t : State), runFor L n s = .next t → t.run = .halted → runFor L (n + k) s = .next t

/-! ## Whole-machine rules -/

/-- R0 to R7 are equal in every respect (R21): to rename registers in the instruction and in the state is to rename them in
the outcome; and none is hardwired: MOV completes with the value moved in any of them, and after any instruction that
completes its destination holds the value written and every other register what it held. -/
def Obligations.RegistersAreInterchangeable : Prop :=
  (∀ (p : Equiv.Perm Reg) (i : Instr) (s : State),
    exec (renameInstr p i) (renameState p s) = mapNext (renameState p) (exec i s)) ∧
  (∀ (s : State) (rd rs : Reg) (imm16 : Half),
    (∃ t, exec (.movR rd rs) s = .next t ∧ t.reg rd = s.reg rs) ∧
    (∃ t, exec (.movI rd imm16) s = .next t ∧ t.reg rd = BitVec.signExtend 32 imm16)) ∧
  (∀ (i : Instr) (s t : State) (q : Reg), exec i s = .next t → (∀ c, t ≠ s.enterFault c) →
    t.reg q =
      match i with
      | .movR rd rs => if q = rd then s.reg rs else s.reg q
      | .movI rd imm16 => if q = rd then BitVec.signExtend 32 imm16 else s.reg q
      | .addR rd rs => if q = rd then s.reg rd + s.reg rs else s.reg q
      | .addI rd imm16 => if q = rd then s.reg rd + BitVec.signExtend 32 imm16 else s.reg q
      | .subR rd rs => if q = rd then s.reg rd - s.reg rs else s.reg q
      | .subI rd imm16 => if q = rd then s.reg rd - BitVec.signExtend 32 imm16 else s.reg q
      | .load rd rs imm16 => if q = rd then s.wordAt (s.reg rs + BitVec.signExtend 32 imm16) else s.reg q
      | .store _ _ _ => s.reg q
      | .jmp _ => s.reg q
      | .jz _ => s.reg q
      | .jnz _ => s.reg q
      | .halt => s.reg q)

/-- No instruction reads or writes SP (R27): with another value in SP everything else comes out the same. -/
def Obligations.StackPointerIsInert : Prop :=
  ∀ (i : Instr) (s : State) (v : Word),
    exec i { s with sp := v } = mapNext (fun t => { t with sp := v }) (exec i s)

/-- No instruction reads N, C or V (R31): with other values in them, registers, pc, the run state, memory and Z come out the
same, and so does every flag the instruction writes; the flags it does not write come out as they went in (R30). An
instruction that faults writes none (D11, log 10). -/
def Obligations.OnlyZIsRead : Prop :=
  ∀ (i : Instr) (s t t' : State) (f : Flags), f.z = s.flags.z → exec i s = .next t → exec i { s with flags := f } = .next t' →
    t' = { t with flags := t'.flags } ∧ t'.flags.z = t.flags.z ∧
    (i.mnemonic = .add ∨ i.mnemonic = .sub → t'.flags = t.flags) ∧
    (i.mnemonic = .mov ∨ i.mnemonic = .load ∧ (∀ c, t ≠ s.enterFault c) →
      t'.flags = { t.flags with c := f.c, v := f.v }) ∧
    (i.mnemonic ∈ [.store, .jmp, .jz, .jnz, .halt] ∨ (∃ c, t = s.enterFault c) → t'.flags = f)

/-- Z and N of MOV, ADD, SUB and LOAD are Z(r) and N(r) of the 32-bit value r they write to the destination register, and are
never both 1 (R117). -/
def Obligations.ZeroAndNegativeFlags : Prop :=
  ∀ (i : Instr) (rd : Reg) (s t : State), destReg i = some rd → s.run = .running → exec i s = .next t →
    (∀ c, t.run ≠ .faulted c) →
    t.flags.z = (if t.reg rd = 0x00000000 then true else false) ∧ t.flags.n = BitVec.getLsbD (t.reg rd) 31 ∧
    ¬ (t.flags.z = true ∧ t.flags.n = true)

/-- PC after each instruction that does not fault: pc + 4 after MOV, ADD, SUB, LOAD and STORE; the jumps write it themselves,
and a JZ or JNZ whose condition is false writes pc + 4; HALT leaves it (R24). -/
def Obligations.PcAdvanceOfEachInstruction : Prop :=
  ∀ (i : Instr) (s t : State), s.run = .running → exec i s = .next t → (∀ c, t.run ≠ .faulted c) →
    t.pc =
      match i with
      | .movR _ _ => s.pc + 4
      | .movI _ _ => s.pc + 4
      | .addR _ _ => s.pc + 4
      | .addI _ _ => s.pc + 4
      | .subR _ _ => s.pc + 4
      | .subI _ _ => s.pc + 4
      | .load _ _ _ => s.pc + 4
      | .store _ _ _ => s.pc + 4
      | .jmp offset16 => s.pc + 4 + (BitVec.signExtend 32 offset16 <<< (2 : Nat))
      | .jz offset16 => if s.flags.z = true then s.pc + 4 + (BitVec.signExtend 32 offset16 <<< (2 : Nat)) else s.pc + 4
      | .jnz offset16 => if s.flags.z = true then s.pc + 4 else s.pc + 4 + (BitVec.signExtend 32 offset16 <<< (2 : Nat))
      | .halt => s.pc

/-! ## Operand forms and arithmetic -/

/-- `sext_32(imm16)`: the low 16 bits are imm16, the high 16 bits all equal imm16[15]; as integers it is the signed value,
from -32768 to +32767. `zext_N` pads with zero bits (R8). -/
def Obligations.SignExtensionOfImmediates : Prop :=
  (∀ i : Half,
    BitVec.extractLsb' 0 16 (sext32 i) = i ∧
    (∀ k, 16 ≤ k → k < 32 → BitVec.getLsbD (sext32 i) k = BitVec.getLsbD i 15) ∧
    (sext32 i).toInt = (if i.toNat < 0x8000 then (i.toNat : Int) else (i.toNat : Int) - 0x10000) ∧
    -32768 ≤ (sext32 i).toInt ∧ (sext32 i).toInt ≤ 32767) ∧
  (∀ (n : Nat) (v : Word), 32 ≤ n → (BitVec.zeroExtend n v).toNat = v.toNat)

/-- The second operand of MOV, ADD and SUB is `x[rs]` or `sext_32(imm16)` according to the form; the register form reads it
before Rd is written, so that `rs = rd` uses the old value (R110). -/
def Obligations.SecondOperandByForm : Prop :=
  ∀ (s : State) (rd rs : Reg) (imm16 : Half),
    (∃ t, exec (.movR rd rs) s = .next t ∧ t.reg rd = s.reg rs) ∧
    (∃ t, exec (.movI rd imm16) s = .next t ∧ t.reg rd = sext32 imm16) ∧
    (∃ t, exec (.addR rd rs) s = .next t ∧ t.reg rd = s.reg rd + s.reg rs) ∧
    (∃ t, exec (.addI rd imm16) s = .next t ∧ t.reg rd = s.reg rd + sext32 imm16) ∧
    (∃ t, exec (.subR rd rs) s = .next t ∧ t.reg rd = s.reg rd - s.reg rs) ∧
    (∃ t, exec (.subI rd imm16) s = .next t ∧ t.reg rd = s.reg rd - sext32 imm16)

/-- C of ADD and of SUB, both forms, is bit 32 of the source's 64-bit `tmp` (R118; for SUB derived there, log 21). -/
def Obligations.CarryIsBit32OfTheWideResult : Prop :=
  ∀ (s : State) (rd rs : Reg) (imm16 : Half) (i : Instr) (src : Word),
    ((i = .addR rd rs ∧ src = s.reg rs) ∨ (i = .addI rd imm16 ∧ src = BitVec.signExtend 32 imm16) →
      ∃ t, exec i s = .next t ∧
        t.flags.c = BitVec.getLsbD (BitVec.zeroExtend 64 (s.reg rd) + BitVec.zeroExtend 64 src) 32) ∧
    ((i = .subR rd rs ∧ src = s.reg rs) ∨ (i = .subI rd imm16 ∧ src = BitVec.signExtend 32 imm16) →
      ∃ t, exec i s = .next t ∧
        t.flags.c = BitVec.getLsbD (BitVec.zeroExtend 64 (s.reg rd) - BitVec.zeroExtend 64 src) 32)

/-- SUB, both forms, writes what adding the two's complement writes, but its C is the inverse of the carry of
`old + (not src) + 1` (R120 e, derived there, log 21). -/
def Obligations.SubIsAddOfTheTwosComplement : Prop :=
  ∀ (s : State) (rd rs : Reg) (imm16 : Half) (i : Instr) (src : Word),
    (i = .subR rd rs ∧ src = s.reg rs) ∨ (i = .subI rd imm16 ∧ src = BitVec.signExtend 32 imm16) →
    ∃ t, exec i s = .next t ∧
      t.reg rd = s.reg rd + (~~~ src + 1) ∧
      (t.flags.c = true ↔ (s.reg rd).toNat + (~~~ src).toNat + 1 < 2 ^ 32)

/-- The target of all three jumps, counted in 4-byte instructions from the one after the jump, and its reach (R140). -/
def Obligations.JumpTargetsCountInstructions : Prop :=
  ∀ (s t : State) (i : Instr) (offset16 : Half),
    (i = .jmp offset16 ∨ (i = .jz offset16 ∧ s.flags.z = true) ∨ (i = .jnz offset16 ∧ s.flags.z = false)) → exec i s = .next t →
    t.pc = s.pc + 4 + (BitVec.signExtend 32 offset16 <<< (2 : Nat)) ∧
    (t.pc - (s.pc + 4)).toInt = 4 * offset16.toInt ∧
    -131072 ≤ (t.pc - (s.pc + 4)).toInt ∧ (t.pc - (s.pc + 4)).toInt ≤ 131068 ∧
    (offset16 = 0 → t.pc = s.pc + 4) ∧ (offset16 = 0xFFFF → t.pc = s.pc) ∧ (offset16 = 0xFFFE → t.pc = s.pc - 4) ∧
    (∀ k : Nat, k ≤ 32767 → offset16 = BitVec.ofNat 16 k → t.pc = s.pc + 4 + BitVec.ofNat 32 (4 * k))

/-! ## Memory -/

/-- A LOAD right after a STORE to the same address gives the value stored, of whatever registers and alignment the two
instructions complete with (R60 a; D14, log 12). -/
def Obligations.LoadAfterStoreGivesTheValue : Prop :=
  ∀ (s t u : State) (rs rd rd' rs' : Reg) (imm16 imm16' : Half),
    s.run = .running → exec (.store rs rd imm16) s = .next t → t.run = .running →
    t.reg rs' + BitVec.signExtend 32 imm16' = s.reg rd + BitVec.signExtend 32 imm16 →
    exec (.load rd' rs' imm16') t = .next u → u.run = .running ∧ u.reg rd' = s.reg rs

/-- A STORE over the next instruction is seen by its fetch: the next step executes the stored word (R64; D9, log 8). -/
def Obligations.StoredWordIsFetched : Prop :=
  ∀ (s t : State) (rs rd : Reg) (imm16 : Half) (i : Instr),
    s.run = .running → s.pc.toNat % 4 = 0 → exec (.store rs rd imm16) s = .next t → t.run = .running →
    s.reg rd + BitVec.signExtend 32 imm16 = s.pc + 4 →
    decodeWord .default s.cfg.strictReserved (s.reg rs) = .ok i → step t = exec i t

/-- Under MISALIGNED_POLICY = bytewise a backed word at ANY address is its four bytes, addresses modulo 2^32 (R68; D6, log 4). -/
def Obligations.BytewisePolicyIgnoresAlignment : Prop :=
  ∀ (s : State) (ra rb : Reg) (imm16 : Half) (ea : Word),
    s.cfg.misaligned = .bytewise → ea = s.effectiveAddress rb imm16 → s.backed ea = true →
    (∃ t, exec (.load ra rb imm16) s = .next t ∧ t.run = s.run ∧
      t.reg ra = s.readByte (ea + 3) ++ s.readByte (ea + 2) ++ s.readByte (ea + 1) ++ s.readByte ea) ∧
    (∃ t, exec (.store ra rb imm16) s = .next t ∧ t.run = s.run ∧
      t.readByte (ea + 3) ++ t.readByte (ea + 2) ++ t.readByte (ea + 1) ++ t.readByte ea = s.reg ra)

/-- A multi-byte value stands little-endian: a word `v` is at `a` exactly when its bytes are at `a` to `a + 3`, the least
significant first; the opcode byte of an instruction is at `pc + 3` (R51, R80). -/
def Obligations.WordsAreLittleEndian : Prop :=
  (∀ (s : State) (a v : Word), s.wordAt a = v ↔
    s.readByte a = BitVec.extractLsb' 0 8 v ∧ s.readByte (a + 1) = BitVec.extractLsb' 8 8 v ∧
    s.readByte (a + 2) = BitVec.extractLsb' 16 8 v ∧ s.readByte (a + 3) = BitVec.extractLsb' 24 8 v) ∧
  (∀ s : State, opcodeField (s.wordAt s.pc) = s.readByte (s.pc + 3))

/-! ## The assembler (30_encoding.md R94 to R96; D19, log 17) -/

/-- The offset a label resolves to takes the jump at byte address `a` to the label's address (R96). -/
def Obligations.LabelOffsetsReachTheLabel : Prop :=
  ∀ (s t : State) (a l : Nat) (offset16 : Half), a < 2 ^ 32 → l < 2 ^ 32 → labelOffset a l = some offset16 →
    s.pc = BitVec.ofNat 32 a → exec (.jmp offset16) s = .next t → t.pc = BitVec.ofNat 32 l

/-- The assembler answers exactly the instruction that the written one says: its mnemonic, its registers, its number, the
offset that reaches its label. So it refuses an operand out of range and a label whose offset is out of range, no multiple
of 4 or nowhere defined, and truncates nothing; with numbers for its jump operands a well-formed instruction is always
assembled (R94 to R96). -/
def Obligations.AssemblerRefusesOutOfRange : Prop :=
  ∀ (program : List Line) (a : Nat) (src : Source),
    (∀ i, assembleInstr program a src = some i ↔ sourceSays program a src i) ∧
    (src.wellFormed = false → assembleInstr program a src = none) ∧
    (src.wellFormed = true → (∀ name, src ≠ .jmp (.label name) ∧ src ≠ .jz (.label name) ∧ src ≠ .jnz (.label name)) →
      (assembleInstr program a src).isSome = true)
end

