-- ==== Sys2Proof/Laws/Assembler.lean ====
section
/-! SUPPORT. What the assembler's checked conversions answer: a register, a 16-bit number, the offset of a jump. -/

namespace Sys2Proof.Machine

theorem reg?_eq_some (n : Nat) (r : Reg) : reg? n = some r ↔ r.val = n := by
  unfold reg?
  split
  · simp [Fin.ext_iff, eq_comm]
  · simp; omega

theorem toInt_half (h : Half) : -32768 ≤ h.toInt ∧ h.toInt ≤ 32767 := by
  have h1 := BitVec.le_toInt h
  have h2 := BitVec.toInt_lt (x := h)
  simp at h1 h2
  omega

theorem half?_eq_some (n : Int) (h : Half) : half? n = some h ↔ h.toInt = n := by
  constructor
  · intro hh
    unfold half? at hh
    split at hh
    · rename_i hf
      cases hh
      simp [fitsHalf] at hf
      simp [Int.bmod_def]
      omega
    · cases hh
  · rintro rfl
    have := toInt_half h
    simp [half?, fitsHalf, this]

/-- The offset of a label is the one that takes the jump to it (30_encoding.md R96). -/
theorem labelOffset_eq_some (a l : Nat) (h : Half) :
    labelOffset a l = some h ↔ (l : Int) = (a : Int) + 4 + 4 * h.toInt := by
  unfold labelOffset
  split
  · rw [half?_eq_some]; omega
  · simp; omega

/-- The offset field of a jump is what its operand says (30_encoding.md R95, R96). -/
theorem jumpField_eq_some (program : List Line) (a : Nat) (target : JumpOperand) (h : Half) :
    jumpField program a target = some h ↔ offsetSays program a target h := by
  cases target with
  | words n => exact half?_eq_some n h
  | label name => simp [jumpField, offsetSays, Option.bind_eq_some_iff, labelOffset_eq_some]

end Sys2Proof.Machine
end

