-- ==== Sys2Proof/Laws/Decode.lean ====
section
/-! SUPPORT. The laws of the encoding's parts: fields of packed argument bits, register numbers, the opcode byte above the
argument bits, the opcode map, and the test on unused bits. -/

namespace Sys2Proof

theorem regOfBits_bitsOfReg (r : Reg) : regOfBits (bitsOfReg r) = r := by
  revert r; decide

theorem bitsOfReg_regOfBits (b : BitVec 3) : bitsOfReg (regOfBits b) = b := by
  revert b; decide

section Fields

variable (sel : BitVec 1) (rd : BitVec 3) (z19 : BitVec 1) (rs : BitVec 3) (imm : Half)

theorem argImm_mkArgs : argImm (mkArgs sel rd z19 rs imm) = imm := by
  refine BitVec.eq_of_getLsbD_eq fun i hi => ?_
  simp only [argImm, mkArgs, BitVec.getLsbD_append, BitVec.getLsbD_extractLsb']
  simp [hi]

theorem argRs_mkArgs : argRs (mkArgs sel rd z19 rs imm) = rs := by
  refine BitVec.eq_of_getLsbD_eq fun i hi => ?_
  simp only [argRs, mkArgs, BitVec.getLsbD_append, BitVec.getLsbD_extractLsb']
  simp [hi]

theorem argZ19_mkArgs : argZ19 (mkArgs sel rd z19 rs imm) = z19 := by
  refine BitVec.eq_of_getLsbD_eq fun i hi => ?_
  simp only [argZ19, mkArgs, BitVec.getLsbD_append, BitVec.getLsbD_extractLsb']
  simp [hi, show ¬ 19 + i < 16 by omega, show ¬ 19 + i - 16 < 3 by omega,
    show 19 + i - 16 - 3 = i by omega]

theorem argRd_mkArgs : argRd (mkArgs sel rd z19 rs imm) = rd := by
  refine BitVec.eq_of_getLsbD_eq fun i hi => ?_
  simp only [argRd, mkArgs, BitVec.getLsbD_append, BitVec.getLsbD_extractLsb']
  simp [hi, show ¬ 20 + i < 16 by omega, show ¬ 20 + i - 16 < 3 by omega,
    show ¬ 20 + i - 16 - 3 < 1 by omega, show 20 + i - 16 - 3 - 1 = i by omega]

theorem argSel_mkArgs : argSel (mkArgs sel rd z19 rs imm) = sel := by
  refine BitVec.eq_of_getLsbD_eq fun i hi => ?_
  simp only [argSel, mkArgs, BitVec.getLsbD_append, BitVec.getLsbD_extractLsb']
  simp [hi, show ¬ 23 + i < 16 by omega, show ¬ 23 + i - 16 < 3 by omega,
    show ¬ 23 + i - 16 - 3 < 1 by omega, show ¬ 23 + i - 16 - 3 - 1 < 3 by omega,
    show 23 + i - 16 - 3 - 1 - 3 = i by omega]

end Fields

/-- Argument bits are their five fields. -/
theorem mkArgs_fields (a : Args) : mkArgs (argSel a) (argRd a) (argZ19 a) (argRs a) (argImm a) = a := by
  refine BitVec.eq_of_getLsbD_eq fun i hi => ?_
  simp only [mkArgs, argSel, argRd, argZ19, argRs, argImm, BitVec.getLsbD_append, BitVec.getLsbD_extractLsb']
  rcases Nat.lt_or_ge i 16 with h | h
  · simp [h]
  rcases Nat.lt_or_ge i 19 with h1 | h1
  · simp [show ¬ i < 16 by omega, show i - 16 < 3 by omega, show 16 + (i - 16) = i by omega]
  rcases Nat.lt_or_ge i 20 with h2 | h2
  · simp [show ¬ i < 16 by omega, show ¬ i - 16 < 3 by omega, show i - 16 - 3 < 1 by omega,
      show 19 + (i - 16 - 3) = i by omega]
  rcases Nat.lt_or_ge i 23 with h3 | h3
  · simp [show ¬ i < 16 by omega, show ¬ i - 16 < 3 by omega, show ¬ i - 16 - 3 < 1 by omega,
      show i - 16 - 3 - 1 < 3 by omega, show 20 + (i - 16 - 3 - 1) = i by omega]
  · simp [show ¬ i < 16 by omega, show ¬ i - 16 < 3 by omega, show ¬ i - 16 - 3 < 1 by omega,
      show ¬ i - 16 - 3 - 1 < 3 by omega, show i - 16 - 3 - 1 - 3 < 1 by omega,
      show 23 + (i - 16 - 3 - 1 - 3) = i by omega]

theorem opcodeField_append (op : BitVec 8) (a : Args) : opcodeField (op ++ a) = op := by
  refine BitVec.eq_of_getLsbD_eq fun i hi => ?_
  simp only [opcodeField, BitVec.getLsbD_append, BitVec.getLsbD_extractLsb']
  simp [hi]

theorem argsField_append (op : BitVec 8) (a : Args) : argsField (op ++ a) = a := by
  refine BitVec.eq_of_getLsbD_eq fun i hi => ?_
  simp only [argsField, BitVec.getLsbD_append, BitVec.getLsbD_extractLsb']
  simp [hi]

/-- A word is its opcode byte above its argument bits (30_encoding.md R81). -/
theorem opcode_append_args (w : Word) : opcodeField w ++ argsField w = w := by
  refine BitVec.eq_of_getLsbD_eq fun i hi => ?_
  simp only [opcodeField, argsField, BitVec.getLsbD_append, BitVec.getLsbD_extractLsb']
  rcases Nat.lt_or_ge i 24 with h | h
  · simp [h]
  · simp [show ¬ i < 24 by omega, show i - 24 < 8 by omega, show 24 + (i - 24) = i by omega]

/-! Fields of a word under a mask. -/

theorem opcodeField_and (w m : Word) : opcodeField (w &&& m) = opcodeField w &&& opcodeField m := BitVec.extractLsb'_and
theorem argsField_and (w m : Word) : argsField (w &&& m) = argsField w &&& argsField m := BitVec.extractLsb'_and
theorem argSel_and (a b : Args) : argSel (a &&& b) = argSel a &&& argSel b := BitVec.extractLsb'_and
theorem argRd_and (a b : Args) : argRd (a &&& b) = argRd a &&& argRd b := BitVec.extractLsb'_and
theorem argZ19_and (a b : Args) : argZ19 (a &&& b) = argZ19 a &&& argZ19 b := BitVec.extractLsb'_and
theorem argRs_and (a b : Args) : argRs (a &&& b) = argRs a &&& argRs b := BitVec.extractLsb'_and
theorem argImm_and (a b : Args) : argImm (a &&& b) = argImm a &&& argImm b := BitVec.extractLsb'_and

/-- The form selector is bit 23 of the word (30_encoding.md R85). -/
theorem argSel_eq_zero (w : Word) : argSel (argsField w) = 0 ↔ BitVec.getLsbD w 23 = false := by
  constructor
  · intro h
    simpa [argSel, argsField] using congrArg (fun x => BitVec.getLsbD x 0) h
  · intro h
    refine BitVec.eq_of_getLsbD_eq fun i hi => ?_
    obtain rfl : i = 0 := by omega
    simpa [argSel, argsField] using h

/-- The opcode is used in every form. -/
theorem opcodeField_and_usedBits (w : Word) : opcodeField (w &&& usedBits w) = opcodeField w := by
  have h : opcodeField (usedBits w) = BitVec.allOnes 8 := by
    unfold usedBits
    split <;> (try split) <;> decide
  rw [opcodeField_and, h, BitVec.and_allOnes]

theorem mnemonicOf_opcodeOf (m : Mnemonic) : mnemonicOf (opcodeOf m) = some m := by
  cases m <;> rfl

theorem opcodeOf_of_mnemonicOf {op : BitVec 8} {m : Mnemonic} (h : mnemonicOf op = some m) : op = opcodeOf m := by
  revert h; revert op; cases m <;> decide

/-- What the test on unused bits answers (30_encoding.md R89). -/
theorem acceptUnused_eq_some {strict unusedZero : Bool} {i j : Instr} :
    acceptUnused strict unusedZero i = some j ↔ (strict = false ∨ unusedZero = true) ∧ i = j := by
  cases strict <;> cases unusedZero <;> simp [acceptUnused]

/-- What `decodeWord` accepts: the opcode selects a mnemonic and the layout reads the arguments. -/
theorem decodeWord_eq_ok {L : ArgsLayout} {strict : Bool} {w : Word} {i : Instr} :
    decodeWord L strict w = .ok i ↔
      ∃ m, mnemonicOf (opcodeField w) = some m ∧ L.decode strict m (argsField w) = some i := by
  unfold decodeWord
  cases mnemonicOf (opcodeField w) with
  | none => simp
  | some m => cases h : L.decode strict m (argsField w) <;> simp [h]

end Sys2Proof
end

