-- ==== Sys2Proof/Laws/State.lean ====
section
/-! SUPPORT. The small lemmas of the state's updates: one per field per update, true by rfl, and what each update does to
a register. Later proofs use these and unfold no record update. -/

namespace Sys2Proof.Machine

variable (s : State)

/-! ### `State.setReg` -/

@[simp] theorem State.setReg_regs (r : Reg) (v : Word) : (s.setReg r v).regs = s.regs.set r.val v r.isLt := rfl
@[simp] theorem State.setReg_pc (r : Reg) (v : Word) : (s.setReg r v).pc = s.pc := rfl
@[simp] theorem State.setReg_sp (r : Reg) (v : Word) : (s.setReg r v).sp = s.sp := rfl
@[simp] theorem State.setReg_flags (r : Reg) (v : Word) : (s.setReg r v).flags = s.flags := rfl
@[simp] theorem State.setReg_run (r : Reg) (v : Word) : (s.setReg r v).run = s.run := rfl
@[simp] theorem State.setReg_mem (r : Reg) (v : Word) : (s.setReg r v).mem = s.mem := rfl
@[simp] theorem State.setReg_cfg (r : Reg) (v : Word) : (s.setReg r v).cfg = s.cfg := rfl

/-! ### `State.setPc` -/

@[simp] theorem State.setPc_regs (v : Word) : (s.setPc v).regs = s.regs := rfl
@[simp] theorem State.setPc_pc (v : Word) : (s.setPc v).pc = v := rfl
@[simp] theorem State.setPc_sp (v : Word) : (s.setPc v).sp = s.sp := rfl
@[simp] theorem State.setPc_flags (v : Word) : (s.setPc v).flags = s.flags := rfl
@[simp] theorem State.setPc_run (v : Word) : (s.setPc v).run = s.run := rfl
@[simp] theorem State.setPc_mem (v : Word) : (s.setPc v).mem = s.mem := rfl
@[simp] theorem State.setPc_cfg (v : Word) : (s.setPc v).cfg = s.cfg := rfl

/-! ### `State.advance` -/

@[simp] theorem State.advance_regs : (s.advance).regs = s.regs := rfl
@[simp] theorem State.advance_pc : (s.advance).pc = s.pc + 4 := rfl
@[simp] theorem State.advance_sp : (s.advance).sp = s.sp := rfl
@[simp] theorem State.advance_flags : (s.advance).flags = s.flags := rfl
@[simp] theorem State.advance_run : (s.advance).run = s.run := rfl
@[simp] theorem State.advance_mem : (s.advance).mem = s.mem := rfl
@[simp] theorem State.advance_cfg : (s.advance).cfg = s.cfg := rfl

/-! ### `State.setFlags` -/

@[simp] theorem State.setFlags_regs (f : Flags) : (s.setFlags f).regs = s.regs := rfl
@[simp] theorem State.setFlags_pc (f : Flags) : (s.setFlags f).pc = s.pc := rfl
@[simp] theorem State.setFlags_sp (f : Flags) : (s.setFlags f).sp = s.sp := rfl
@[simp] theorem State.setFlags_flags (f : Flags) : (s.setFlags f).flags = f := rfl
@[simp] theorem State.setFlags_run (f : Flags) : (s.setFlags f).run = s.run := rfl
@[simp] theorem State.setFlags_mem (f : Flags) : (s.setFlags f).mem = s.mem := rfl
@[simp] theorem State.setFlags_cfg (f : Flags) : (s.setFlags f).cfg = s.cfg := rfl

/-! ### `State.setRun` -/

@[simp] theorem State.setRun_regs (x : Run) : (s.setRun x).regs = s.regs := rfl
@[simp] theorem State.setRun_pc (x : Run) : (s.setRun x).pc = s.pc := rfl
@[simp] theorem State.setRun_sp (x : Run) : (s.setRun x).sp = s.sp := rfl
@[simp] theorem State.setRun_flags (x : Run) : (s.setRun x).flags = s.flags := rfl
@[simp] theorem State.setRun_run (x : Run) : (s.setRun x).run = x := rfl
@[simp] theorem State.setRun_mem (x : Run) : (s.setRun x).mem = s.mem := rfl
@[simp] theorem State.setRun_cfg (x : Run) : (s.setRun x).cfg = s.cfg := rfl

/-! ### `State.writeByte` -/

@[simp] theorem State.writeByte_regs (a : Word) (b : Byte) : (s.writeByte a b).regs = s.regs := rfl
@[simp] theorem State.writeByte_pc (a : Word) (b : Byte) : (s.writeByte a b).pc = s.pc := rfl
@[simp] theorem State.writeByte_sp (a : Word) (b : Byte) : (s.writeByte a b).sp = s.sp := rfl
@[simp] theorem State.writeByte_flags (a : Word) (b : Byte) : (s.writeByte a b).flags = s.flags := rfl
@[simp] theorem State.writeByte_run (a : Word) (b : Byte) : (s.writeByte a b).run = s.run := rfl
@[simp] theorem State.writeByte_mem (a : Word) (b : Byte) : (s.writeByte a b).mem = Memory.insert s.mem a.toNat b := rfl
@[simp] theorem State.writeByte_cfg (a : Word) (b : Byte) : (s.writeByte a b).cfg = s.cfg := rfl

/-! ### `State.putWord` -/

@[simp] theorem State.putWord_regs (a v : Word) : (s.putWord a v).regs = s.regs := rfl
@[simp] theorem State.putWord_pc (a v : Word) : (s.putWord a v).pc = s.pc := rfl
@[simp] theorem State.putWord_sp (a v : Word) : (s.putWord a v).sp = s.sp := rfl
@[simp] theorem State.putWord_flags (a v : Word) : (s.putWord a v).flags = s.flags := rfl
@[simp] theorem State.putWord_run (a v : Word) : (s.putWord a v).run = s.run := rfl
@[simp] theorem State.putWord_cfg (a v : Word) : (s.putWord a v).cfg = s.cfg := rfl

/-! ### `State.enterFault` -/

@[simp] theorem State.enterFault_regs (c : FaultCause) : (s.enterFault c).regs = s.regs := rfl
@[simp] theorem State.enterFault_pc (c : FaultCause) : (s.enterFault c).pc = s.pc := rfl
@[simp] theorem State.enterFault_sp (c : FaultCause) : (s.enterFault c).sp = s.sp := rfl
@[simp] theorem State.enterFault_flags (c : FaultCause) : (s.enterFault c).flags = s.flags := rfl
@[simp] theorem State.enterFault_run (c : FaultCause) : (s.enterFault c).run = .faulted c := rfl
@[simp] theorem State.enterFault_mem (c : FaultCause) : (s.enterFault c).mem = s.mem := rfl
@[simp] theorem State.enterFault_cfg (c : FaultCause) : (s.enterFault c).cfg = s.cfg := rfl

/-! ### `State.hostReset` -/

@[simp] theorem State.hostReset_regs : (s.hostReset).regs = Vector.replicate 8 0 := rfl
@[simp] theorem State.hostReset_pc : (s.hostReset).pc = 0 := rfl
@[simp] theorem State.hostReset_sp : (s.hostReset).sp = 0 := rfl
@[simp] theorem State.hostReset_flags : (s.hostReset).flags = State.reset.flags := rfl
@[simp] theorem State.hostReset_run : (s.hostReset).run = .running := rfl
@[simp] theorem State.hostReset_mem : (s.hostReset).mem = s.mem := rfl
@[simp] theorem State.hostReset_cfg : (s.hostReset).cfg = s.cfg := rfl

/-! ### Registers -/

theorem State.reg_setReg (r q : Reg) (v : Word) : (s.setReg r v).reg q = if r = q then v else s.reg q := by
  simp only [State.reg, State.setReg, Vector.getElem_set, Fin.ext_iff]

@[simp] theorem State.reg_setReg_same (r : Reg) (v : Word) : (s.setReg r v).reg r = v := by
  simp [State.reg_setReg]

theorem State.reg_setReg_other {r q : Reg} (v : Word) (h : q ≠ r) : (s.setReg r v).reg q = s.reg q := by
  rw [State.reg_setReg, if_neg (Ne.symm h)]

@[simp] theorem State.reg_setPc (v : Word) (q : Reg) : (s.setPc v).reg q = s.reg q := rfl
@[simp] theorem State.reg_advance (q : Reg) : (s.advance).reg q = s.reg q := rfl
@[simp] theorem State.reg_setFlags (f : Flags) (q : Reg) : (s.setFlags f).reg q = s.reg q := rfl
@[simp] theorem State.reg_setRun (x : Run) (q : Reg) : (s.setRun x).reg q = s.reg q := rfl
@[simp] theorem State.reg_writeByte (a : Word) (b : Byte) (q : Reg) : (s.writeByte a b).reg q = s.reg q := rfl
@[simp] theorem State.reg_putWord (a v : Word) (q : Reg) : (s.putWord a v).reg q = s.reg q := rfl
@[simp] theorem State.reg_enterFault (c : FaultCause) (q : Reg) : (s.enterFault c).reg q = s.reg q := rfl

@[simp] theorem State.reg_hostReset (q : Reg) : s.hostReset.reg q = 0 := by
  simp only [State.reg, State.hostReset_regs]; exact Vector.getElem_replicate ..

/-- Two states are equal when their fields are, the registers read one by one. -/
theorem State.ext_reg {s t : State} (hr : ∀ q, s.reg q = t.reg q) (hpc : s.pc = t.pc) (hsp : s.sp = t.sp)
    (hf : s.flags = t.flags) (hrun : s.run = t.run) (hm : s.mem = t.mem) (hc : s.cfg = t.cfg) : s = t := by
  obtain ⟨sr, _, _, _, _, _, _⟩ := s
  obtain ⟨tr, _, _, _, _, _, _⟩ := t
  have hregs : sr = tr := Vector.ext fun i hi => hr ⟨i, hi⟩
  simp_all

end Sys2Proof.Machine
end

