-- ==== Sys2Proof/Laws/Memory.lean ====
section
/-! SUPPORT. The laws of memory: what a read gives after a write, that every memory operation keeps the canonical form,
and what MemRead, MemWrite and Fetch can answer. -/

namespace Sys2Proof.Machine

/-! ## The list of bytes -/

theorem Memory.lookup_insert (m : Memory) (a x : Nat) (b : Byte) :
    Memory.lookup (Memory.insert m a b) x = if a = x then some b else Memory.lookup m x := by
  induction m with
  | nil => simp [Memory.insert, Memory.lookup]
  | cons cell m ih =>
    obtain ⟨k, c⟩ := cell
    simp only [Memory.insert]
    split
    · simp [Memory.lookup]
    · split
      · rename_i hk
        subst hk
        simp only [Memory.lookup]
        split <;> rfl
      · rename_i hk
        simp only [Memory.lookup, ih]
        split
        · rename_i hx
          subst hx
          rw [if_neg hk]
        · rfl

theorem Memory.risingFrom_mono {lo lo' : Nat} (h : lo' ≤ lo) {m : Memory} (hm : Memory.risingFrom lo m = true) :
    Memory.risingFrom lo' m = true := by
  cases m with
  | nil => rfl
  | cons cell m =>
    simp only [Memory.risingFrom, Bool.and_eq_true, decide_eq_true_eq] at hm ⊢
    exact ⟨⟨by omega, hm.1.2⟩, hm.2⟩

theorem Memory.risingFrom_insert {lo a : Nat} {m : Memory} (hlo : lo ≤ a) (ha : a < 2 ^ 32) (b : Byte)
    (hm : Memory.risingFrom lo m = true) : Memory.risingFrom lo (Memory.insert m a b) = true := by
  induction m generalizing lo with
  | nil =>
    simp only [Memory.insert, Memory.risingFrom, Bool.and_eq_true, decide_eq_true_eq]
    exact ⟨⟨hlo, ha⟩, trivial⟩
  | cons cell m ih =>
    obtain ⟨k, c⟩ := cell
    simp only [Memory.risingFrom, Bool.and_eq_true, decide_eq_true_eq] at hm
    obtain ⟨⟨hk, hk2⟩, hrest⟩ := hm
    simp only [Memory.insert]
    split
    · simp only [Memory.risingFrom, Bool.and_eq_true, decide_eq_true_eq]
      exact ⟨⟨hlo, ha⟩, ⟨⟨by omega, hk2⟩, hrest⟩⟩
    · split
      · rename_i heq
        subst heq
        simp only [Memory.risingFrom, Bool.and_eq_true, decide_eq_true_eq]
        exact ⟨⟨hlo, ha⟩, hrest⟩
      · simp only [Memory.risingFrom, Bool.and_eq_true, decide_eq_true_eq]
        exact ⟨⟨hk, hk2⟩, ih (by omega) hrest⟩

/-- A write keeps the canonical form. -/
theorem Memory.wf_insert {m : Memory} (hm : Memory.wf m = true) (a : Word) (b : Byte) :
    Memory.wf (Memory.insert m a.toNat b) = true :=
  Memory.risingFrom_insert (Nat.zero_le _) a.isLt b hm

/-! ## Bytes of a state -/

theorem State.readByte_writeByte (s : State) (a x : Word) (b : Byte) :
    (s.writeByte a b).readByte x = if a = x then b else s.readByte x := by
  simp only [State.readByte, State.writeByte_mem, Memory.lookup_insert, ← BitVec.toNat_eq]
  split <;> rfl

@[simp] theorem State.readByte_writeByte_same (s : State) (a : Word) (b : Byte) : (s.writeByte a b).readByte a = b := by
  simp [State.readByte_writeByte]

@[simp] theorem State.readByte_setReg (s : State) (r : Reg) (v a : Word) : (s.setReg r v).readByte a = s.readByte a := rfl
@[simp] theorem State.readByte_setPc (s : State) (v a : Word) : (s.setPc v).readByte a = s.readByte a := rfl
@[simp] theorem State.readByte_advance (s : State) (a : Word) : s.advance.readByte a = s.readByte a := rfl
@[simp] theorem State.readByte_setFlags (s : State) (f : Flags) (a : Word) : (s.setFlags f).readByte a = s.readByte a := rfl
@[simp] theorem State.readByte_setRun (s : State) (x : Run) (a : Word) : (s.setRun x).readByte a = s.readByte a := rfl
@[simp] theorem State.readByte_enterFault (s : State) (c : FaultCause) (a : Word) :
    (s.enterFault c).readByte a = s.readByte a := rfl
@[simp] theorem State.readByte_hostReset (s : State) (a : Word) : s.hostReset.readByte a = s.readByte a := rfl

theorem State.wf_writeByte {s : State} (h : Memory.wf s.mem = true) (a : Word) (b : Byte) :
    Memory.wf (s.writeByte a b).mem = true := Memory.wf_insert h a b

/-- A word stored keeps the canonical form. -/
theorem State.wf_putWord {s : State} (h : Memory.wf s.mem = true) (a v : Word) : Memory.wf (s.putWord a v).mem = true :=
  State.wf_writeByte (State.wf_writeByte (State.wf_writeByte (State.wf_writeByte h _ _) _ _) _ _) _ _

/-- What a byte reads as after a word is stored: the last of the four writes that hit it, else what it was. -/
theorem State.readByte_putWord (s : State) (a v x : Word) :
    (s.putWord a v).readByte x =
      if a + 3 = x then byteOfWord v 3 else if a + 2 = x then byteOfWord v 2
      else if a + 1 = x then byteOfWord v 1 else if a = x then byteOfWord v 0 else s.readByte x := by
  simp only [State.putWord, State.readByte_writeByte]

/-- A byte outside the four stored ones reads as before. -/
theorem State.readByte_putWord_outside (s : State) (a v x : Word)
    (h : x ≠ a ∧ x ≠ a + 1 ∧ x ≠ a + 2 ∧ x ≠ a + 3) : (s.putWord a v).readByte x = s.readByte x := by
  rw [State.readByte_putWord, if_neg (Ne.symm h.2.2.2), if_neg (Ne.symm h.2.2.1), if_neg (Ne.symm h.2.1),
    if_neg (Ne.symm h.1)]

/-- The four stored bytes read as the bytes of the word. -/
theorem State.readByte_putWord_inside (s : State) (a v : Word) :
    (s.putWord a v).readByte a = byteOfWord v 0 ∧ (s.putWord a v).readByte (a + 1) = byteOfWord v 1 ∧
    (s.putWord a v).readByte (a + 2) = byteOfWord v 2 ∧ (s.putWord a v).readByte (a + 3) = byteOfWord v 3 := by
  have h1 : a + 3 ≠ a := by bv_omega
  have h2 : a + 2 ≠ a := by bv_omega
  have h3 : a + 1 ≠ a := by bv_omega
  have h4 : a + 3 ≠ a + 1 := by bv_omega
  have h5 : a + 2 ≠ a + 1 := by bv_omega
  have h6 : a + 3 ≠ a + 2 := by bv_omega
  simp only [State.readByte_putWord, h1, h2, h3, h4, h5, h6, if_true, if_false, and_self]

/-- A word is put back together from its four bytes. -/
theorem wordOfBytes_byteOfWord (w : Word) :
    wordOfBytes (byteOfWord w 0) (byteOfWord w 1) (byteOfWord w 2) (byteOfWord w 3) = w := by
  refine BitVec.eq_of_getLsbD_eq fun i hi => ?_
  simp only [wordOfBytes, byteOfWord, BitVec.getLsbD_append, BitVec.getLsbD_extractLsb']
  rcases Nat.lt_or_ge i 8 with h | h
  · simp [h]
  rcases Nat.lt_or_ge i 16 with h' | h'
  · simp [show ¬ i < 8 by omega, show i - 8 < 8 by omega, show 8 + (i - 8) = i by omega]
  rcases Nat.lt_or_ge i 24 with h'' | h''
  · simp [show ¬ i < 8 by omega, show ¬ i - 8 < 8 by omega, show i - 8 - 8 < 8 by omega,
      show 16 + (i - 8 - 8) = i by omega]
  · simp [show ¬ i < 8 by omega, show ¬ i - 8 < 8 by omega, show ¬ i - 8 - 8 < 8 by omega,
      show i - 8 - 8 - 8 < 8 by omega, show 24 + (i - 8 - 8 - 8) = i by omega]

/-- A word read where it was stored. -/
theorem State.wordAt_putWord_same (s : State) (a v : Word) : (s.putWord a v).wordAt a = v := by
  obtain ⟨h0, h1, h2, h3⟩ := s.readByte_putWord_inside a v
  rw [State.wordAt, h0, h1, h2, h3, wordOfBytes_byteOfWord]

/-- Two states with the same memory read the same words. -/
theorem State.wordAt_congr {s t : State} (h : s.mem = t.mem) (a : Word) : s.wordAt a = t.wordAt a := by
  simp only [State.wordAt, State.readByte, h]

theorem State.backed_congr {s t : State} (h : s.cfg = t.cfg) (a : Word) : s.backed a = t.backed a := by
  simp only [State.backed, h]

/-! ## What the memory primitives answer -/

/-- When a data access raises nothing: aligned or bytewise, and backed. -/
theorem State.dataFault_eq_none (s : State) (a : Word) (d : DataAccess) :
    s.dataFault a d = none ↔ (s.cfg.misaligned = .bytewise ∨ aligned a = true) ∧ s.backed a = true := by
  unfold State.dataFault
  cases s.cfg.misaligned <;> cases aligned a <;> cases s.backed a <;> simp

/-- What a data access raises: MisalignedAccess first, then BusError (60_exceptions.md R166). -/
theorem State.dataFault_eq_some (s : State) (a : Word) (d : DataAccess) (c : FaultCause) :
    s.dataFault a d = some c ↔
      (s.cfg.misaligned = .fault ∧ aligned a = false ∧ c = .misalignedAccess a d) ∨
      ((s.cfg.misaligned = .bytewise ∨ aligned a = true) ∧ s.backed a = false ∧ c = .busError a (.data d)) := by
  unfold State.dataFault
  cases s.cfg.misaligned <;> cases aligned a <;> cases s.backed a <;> simp [eq_comm]

theorem State.dataFault_congr {s t : State} (h : s.cfg = t.cfg) (a : Word) (d : DataAccess) :
    s.dataFault a d = t.dataFault a d := by
  unfold State.dataFault State.backed; rw [h]

end Sys2Proof.Machine
end

