-- ==== Sys2Proof/Laws/Exec.lean ====
section
/-! SUPPORT. What each shared operation of a step can do, said once: the updates of MOV, ADD and SUB field by field, the
outcomes of LOAD and STORE, and the cases of a step. -/

namespace Sys2Proof.Machine

/-! ## MOV, ADD, SUB -/

section MoveArith

variable (s : State) (rd : Reg) (src : Word)

theorem State.reg_moveInto (q : Reg) : (s.moveInto rd src).reg q = if rd = q then src else s.reg q := by
  simp [State.moveInto, State.reg_setReg]

theorem State.reg_addInto (q : Reg) : (s.addInto rd src).reg q = if rd = q then s.reg rd + src else s.reg q := by
  simp [State.addInto, State.reg_setReg]

theorem State.reg_subInto (q : Reg) : (s.subInto rd src).reg q = if rd = q then s.reg rd - src else s.reg q := by
  simp [State.subInto, State.reg_setReg]

@[simp] theorem State.moveInto_flags : (s.moveInto rd src).flags = s.flags.withZN src := rfl
@[simp] theorem State.moveInto_pc : (s.moveInto rd src).pc = s.pc + 4 := rfl
@[simp] theorem State.moveInto_sp : (s.moveInto rd src).sp = s.sp := rfl
@[simp] theorem State.moveInto_run : (s.moveInto rd src).run = s.run := rfl
@[simp] theorem State.moveInto_mem : (s.moveInto rd src).mem = s.mem := rfl
@[simp] theorem State.moveInto_cfg : (s.moveInto rd src).cfg = s.cfg := rfl
@[simp] theorem State.addInto_flags : (s.addInto rd src).flags = flagsOfAdd (s.reg rd) src := rfl
@[simp] theorem State.addInto_pc : (s.addInto rd src).pc = s.pc + 4 := rfl
@[simp] theorem State.addInto_sp : (s.addInto rd src).sp = s.sp := rfl
@[simp] theorem State.addInto_run : (s.addInto rd src).run = s.run := rfl
@[simp] theorem State.addInto_mem : (s.addInto rd src).mem = s.mem := rfl
@[simp] theorem State.addInto_cfg : (s.addInto rd src).cfg = s.cfg := rfl
@[simp] theorem State.subInto_flags : (s.subInto rd src).flags = flagsOfSub (s.reg rd) src := rfl
@[simp] theorem State.subInto_pc : (s.subInto rd src).pc = s.pc + 4 := rfl
@[simp] theorem State.subInto_sp : (s.subInto rd src).sp = s.sp := rfl
@[simp] theorem State.subInto_run : (s.subInto rd src).run = s.run := rfl
@[simp] theorem State.subInto_mem : (s.subInto rd src).mem = s.mem := rfl
@[simp] theorem State.subInto_cfg : (s.subInto rd src).cfg = s.cfg := rfl

end MoveArith

/-! ## Jumps -/

/-- A jump writes `pc` and nothing else (42_jumps.md R144). -/
theorem State.jumpIf_eq (s : State) (taken : Bool) (offset16 : Half) :
    s.jumpIf taken offset16 = s.setPc (if taken then s.jumpTarget offset16 else s.pc + 4) := by
  cases taken <;> rfl

/-! ## LOAD and STORE -/

/-- LOAD either takes the fault of its access or loads. -/
theorem execLoad_cases (rd rs : Reg) (imm16 : Half) (s : State) :
    (∃ c, s.dataFault (s.effectiveAddress rs imm16) .load = some c ∧ execLoad rd rs imm16 s = .next (s.enterFault c)) ∨
    (s.dataFault (s.effectiveAddress rs imm16) .load = none ∧
      execLoad rd rs imm16 s = .next (s.moveInto rd (s.wordAt (s.effectiveAddress rs imm16)))) := by
  unfold execLoad State.memRead
  cases h : s.dataFault (s.effectiveAddress rs imm16) .load with
  | some c => exact .inl ⟨c, rfl, rfl⟩
  | none => exact .inr ⟨rfl, rfl⟩

/-- STORE either takes the fault of its access or stores. -/
theorem execStore_cases (rs rd : Reg) (imm16 : Half) (s : State) :
    (∃ c, s.dataFault (s.effectiveAddress rd imm16) .store = some c ∧ execStore rs rd imm16 s = .next (s.enterFault c)) ∨
    (s.dataFault (s.effectiveAddress rd imm16) .store = none ∧
      execStore rs rd imm16 s = .next (s.putWord (s.effectiveAddress rd imm16) (s.reg rs)).advance) := by
  unfold execStore State.memWrite
  cases h : s.dataFault (s.effectiveAddress rd imm16) .store with
  | some c => exact .inl ⟨c, rfl, rfl⟩
  | none => exact .inr ⟨rfl, rfl⟩

/-! ## The step -/

/-- A step that answers a next state ran from a running state with an aligned PC, and took a fetch fault, took an illegal
instruction, or executed the instruction it decoded. -/
theorem stepUnder_next {L : ArgsLayout} {s t : State} (h : stepUnder L s = .next t) :
    s.run = .running ∧ aligned s.pc = true ∧
    ((s.backed s.pc = false ∧ t = s.enterFault (.busError s.pc .fetch)) ∨
     (s.backed s.pc = true ∧ ∃ e, decodeWord L s.cfg.strictReserved (s.wordAt s.pc) = .error e ∧
        t = s.enterFault (.illegalInstruction (s.wordAt s.pc) s.pc)) ∨
     (s.backed s.pc = true ∧ ∃ i, decodeWord L s.cfg.strictReserved (s.wordAt s.pc) = .ok i ∧ exec i s = .next t)) := by
  unfold stepUnder at h
  split at h
  · exact absurd h nofun
  · exact absurd h nofun
  · rename_i hrun
    split at h
    · rename_i hal
      refine ⟨hrun, hal, ?_⟩
      unfold runCycle State.fetch at h
      cases hb : s.backed s.pc with
      | false =>
        rw [hb] at h
        exact .inl ⟨rfl, by injection h with h; exact h.symm⟩
      | true =>
        rw [hb] at h
        change decodeAndExecute L (s.wordAt s.pc) s = .next t at h
        unfold decodeAndExecute at h
        split at h
        · rename_i e he
          exact .inr (.inl ⟨rfl, e, he, by injection h with h; exact h.symm⟩)
        · rename_i i hi
          exact .inr (.inr ⟨rfl, i, hi, h⟩)
    · exact absurd h nofun

end Sys2Proof.Machine
end

