-- ==== Sys2Proof/Laws/HostActions.lean ====
section
/-! SUPPORT. What the host's loading leaves alone: the parameters, and every byte outside what it loads. -/

namespace Sys2Proof.Machine

@[simp] theorem State.loadBytes_cfg (bs : List Byte) (s : State) (a : Word) : (s.loadBytes a bs).cfg = s.cfg := by
  induction bs generalizing s a with
  | nil => rfl
  | cons b bs ih => simp [State.loadBytes, ih]

theorem State.readByte_loadBytes_outside (bs : List Byte) (s : State) (a x : Word)
    (h : ∀ k, k < bs.length → a + BitVec.ofNat 32 k ≠ x) : (s.loadBytes a bs).readByte x = s.readByte x := by
  induction bs generalizing s a with
  | nil => rfl
  | cons b bs ih =>
    have h0 : ¬ a = x := by simpa using h 0 (by simp)
    rw [State.loadBytes, ih, State.readByte_writeByte, if_neg h0]
    intro k hk
    have := h (k + 1) (by simpa using hk)
    rwa [show a + 1 + BitVec.ofNat 32 k = a + BitVec.ofNat 32 (k + 1) by rw [BitVec.ofNat_add]; bv_omega]

theorem length_imageBytes (is : List Instr) : (imageBytes is).length = 4 * is.length := by
  induction is with
  | nil => rfl
  | cons i is ih => simp [imageBytes, encodeBytes, bytesOfWord, ih]; omega

end Sys2Proof.Machine
end

