-- ==== Sys2Proof/Laws/PerInstr.lean ====
section
/-! SUPPORT. Statements for all instructions, one lemma per constructor. The family OpcodeByte: the top byte of an
instruction's word is its opcode, in every layout (30_encoding.md R81, R83). -/

namespace Sys2Proof

/-- In every ARGS_LAYOUT the bits 31..24 of the encoded instruction are its opcode. -/
def Laws.OpcodeByte.Statement (i : Instr) : Prop := ∀ L : ArgsLayout, opcodeField (encodeWith L i) = opcodeOf i.mnemonic

theorem Laws.OpcodeByte.movR (rd rs : Reg) : Laws.OpcodeByte.Statement (.movR rd rs) :=
  fun _ => opcodeField_append _ _

theorem Laws.OpcodeByte.movI (rd : Reg) (imm16 : Half) : Laws.OpcodeByte.Statement (.movI rd imm16) :=
  fun _ => opcodeField_append _ _

theorem Laws.OpcodeByte.addR (rd rs : Reg) : Laws.OpcodeByte.Statement (.addR rd rs) :=
  fun _ => opcodeField_append _ _

theorem Laws.OpcodeByte.addI (rd : Reg) (imm16 : Half) : Laws.OpcodeByte.Statement (.addI rd imm16) :=
  fun _ => opcodeField_append _ _

theorem Laws.OpcodeByte.subR (rd rs : Reg) : Laws.OpcodeByte.Statement (.subR rd rs) :=
  fun _ => opcodeField_append _ _

theorem Laws.OpcodeByte.subI (rd : Reg) (imm16 : Half) : Laws.OpcodeByte.Statement (.subI rd imm16) :=
  fun _ => opcodeField_append _ _

theorem Laws.OpcodeByte.load (rd rs : Reg) (imm16 : Half) : Laws.OpcodeByte.Statement (.load rd rs imm16) :=
  fun _ => opcodeField_append _ _

theorem Laws.OpcodeByte.store (rs rd : Reg) (imm16 : Half) : Laws.OpcodeByte.Statement (.store rs rd imm16) :=
  fun _ => opcodeField_append _ _

theorem Laws.OpcodeByte.jmp (offset16 : Half) : Laws.OpcodeByte.Statement (.jmp offset16) :=
  fun _ => opcodeField_append _ _

theorem Laws.OpcodeByte.jz (offset16 : Half) : Laws.OpcodeByte.Statement (.jz offset16) :=
  fun _ => opcodeField_append _ _

theorem Laws.OpcodeByte.jnz (offset16 : Half) : Laws.OpcodeByte.Statement (.jnz offset16) :=
  fun _ => opcodeField_append _ _

theorem Laws.OpcodeByte.halt : Laws.OpcodeByte.Statement .halt :=
  fun _ => opcodeField_append _ _

end Sys2Proof
end

