-- ==== Sys2Proof/Tests/Slice0.lean ====
section
/-! SUPPORT. Tests, expected results from spec/ (95_test_vectors.md, 30_encoding.md R98) or by hand from its rules, and for
each statement of Certificates/Slice0/Obligations.lean that has hypotheses a witness that meets them together. -/

namespace Sys2Proof.Machine.Tests

/-! ## Helpers -/

/-- The reset state with the memory map of 95_test_vectors.md, `0x0000` to `0x0FFF`. -/
def base : State := { State.reset with cfg := { Config.default with memMap := [⟨0, 0x1000⟩] } }

/-- FLAGS from its 32-bit value (10_state.md R28). -/
def flagsOf (w : Word) : Flags :=
  { z := BitVec.getLsbD w 0, n := BitVec.getLsbD w 1, c := BitVec.getLsbD w 2, v := BitVec.getLsbD w 3 }

/-- The next state of an outcome, if it has one. -/
def next? : Host.Outcome State Fault Refusal → Option State
  | .next t => some t
  | .fault _ => none
  | .refused _ => none

/-- The step of a state with the word `w` at its pc. -/
def stepOn (s : State) (w : Nat) : Option State := next? (step (s.withFetchWord 32 w))

/-- What a step leaves in a register, FLAGS and pc. -/
def seen (q : Reg) (o : Option State) : Option (Word × Word × Word) :=
  o.map fun t => (t.reg q, t.flags.toWord, t.pc)

/-! ## Well-formedness: an ill-formed term for each check (30_encoding.md R86, R95) -/

theorem test_wellFormed_accepts : (Source.store 7 0 (.dec (-32768))).wellFormed = true := by decide
theorem test_wellFormed_first_register : (Source.movR 8 0).wellFormed = false := by decide
theorem test_wellFormed_second_register : (Source.addR 0 8).wellFormed = false := by decide
theorem test_wellFormed_immediate_high : (Source.movI 0 (.dec 32768)).wellFormed = false := by decide
theorem test_wellFormed_immediate_low : (Source.subI 0 (.dec (-32769))).wellFormed = false := by decide
theorem test_wellFormed_hex_is_a_number : (Source.movI 0 (.hex 0xFFFF)).wellFormed = false := by decide
theorem test_wellFormed_load_offset : (Source.load 0 1 (.dec 32768)).wellFormed = false := by decide
theorem test_wellFormed_load_base : (Source.load 0 8 (.dec 0)).wellFormed = false := by decide
theorem test_wellFormed_store_value : (Source.store 8 0 (.dec 0)).wellFormed = false := by decide
theorem test_wellFormed_jump_offset : (Source.jnz (.words 32768)).wellFormed = false := by decide

/-! ## Decoding: words written out bit by bit from the spec's encodings (30_encoding.md R98; 95 section 2.7) -/

theorem test_decode_movR : decodeWord .default true 0b00000001000100000000000000000000 = .ok (.movR 1 0) := by decide
theorem test_decode_movI : decodeWord .default true 0b00000001100000001111111111111111 = .ok (.movI 0 0xFFFF) := by decide
theorem test_decode_addR : decodeWord .default true 0b00000010010101110000000000000000 = .ok (.addR 5 7) := by decide
theorem test_decode_addI : decodeWord .default true 0b00000010111100000111111111111111 = .ok (.addI 7 0x7FFF) := by decide
theorem test_decode_subR : decodeWord .default true 0b00000011001000110000000000000000 = .ok (.subR 2 3) := by decide
theorem test_decode_subI : decodeWord .default true 0b00000011100000000000000000000001 = .ok (.subI 0 1) := by decide
theorem test_decode_load : decodeWord .default true 0b00000100000000010000000000000100 = .ok (.load 0 1 4) := by decide
theorem test_decode_store : decodeWord .default true 0b00000101001000110000000000000000 = .ok (.store 3 2 0) := by decide
theorem test_decode_jmp : decodeWord .default true 0b00000110000000001111111111111110 = .ok (.jmp 0xFFFE) := by decide
theorem test_decode_jz : decodeWord .default true 0b00000111000000000000000000000011 = .ok (.jz 3) := by decide
theorem test_decode_jnz : decodeWord .default true 0b00001000000000001111111111111111 = .ok (.jnz 0xFFFF) := by decide
theorem test_decode_halt : decodeWord .default true 0b11111111000000000000000000000000 = .ok .halt := by decide

/-- D4v to D9v: rejected strictly by name. -/
theorem test_decode_reserved :
    [0xFF000001, 0x01000001, 0x01880000, 0x01810000, 0x04800000, 0x06010000].map
      (fun w => (decodeWord .default true (BitVec.ofNat 32 w)).toOption) = [none, none, none, none, none, none] := by decide

/-- D4v to D9v with STRICT_RESERVED = false. -/
theorem test_decode_lax :
    [0xFF000001, 0x01000001, 0x01880000, 0x01810000, 0x04800000, 0x06010000].map
      (fun w => (decodeWord .default false (BitVec.ofNat 32 w)).toOption) =
    [some .halt, some (.movR 0 0), some (.movI 0 0), some (.movI 0 0), some (.load 0 0 0), some (.jmp 0)] := by decide

/-- D1v to D3v: undefined opcodes, strict or not. -/
theorem test_decode_undefined :
    decodeWord .default true 0x00000000 = .error (.undefinedOpcode 0x00) ∧
    decodeWord .default false 0x09000000 = .error (.undefinedOpcode 0x09) ∧
    decodeWord .default false 0xFE000000 = .error (.undefinedOpcode 0xFE) := by decide

theorem test_decode_bytes : decodeBytes .default true [0x05, 0x00, 0x80, 0x01, 0xAA] = .ok (.movI 0 5, [0xAA]) := by decide
theorem test_decode_truncated : decodeBytes .default true [0x05, 0x00] = .error (.truncated [0x05, 0x00]) := by decide
theorem test_decodeTableWord : decodeTableWord 32 0x05230000 = some (.store 3 2 0) := by decide
theorem test_encode_store : encodeBytes (.store 3 2 0) = [0x00, 0x00, 0x23, 0x05] := by decide

/-! ## One step of each instruction (95 sections 2.1 to 2.6) -/

/-- M1 -/
theorem test_movI_keeps_carry : seen 0 (stepOn (base.setFlags (flagsOf 0xC)) 0x01800000) = some (0, 0xD, 4) := by decide
/-- M4 -/
theorem test_movI_sign_extends : seen 3 (stepOn base 0x01B08000) = some (0xFFFF8000, 0x2, 4) := by decide
/-- M5 -/
theorem test_movR_same_register : seen 4 (stepOn (base.setFlags (flagsOf 0x6)) 0x01440000) = some (0, 0x5, 4) := by decide
/-- M6 -/
theorem test_movR_negative :
    seen 5 (stepOn ((base.setReg 6 0x80000000).setFlags (flagsOf 0x5)) 0x01560000) = some (0x80000000, 0x6, 4) := by decide
/-- A2 -/
theorem test_addR_overflows :
    seen 0 (stepOn ((base.setReg 0 0x7FFFFFFF).setReg 1 1) 0x02010000) = some (0x80000000, 0xA, 4) := by decide
/-- A5 -/
theorem test_addR_doubles : seen 0 (stepOn (base.setReg 0 0xC0000000) 0x02000000) = some (0x80000000, 0x6, 4) := by decide
/-- A8 -/
theorem test_addI_negative : seen 0 (stepOn (base.setReg 0 0x80000000) 0x0280FFFF) = some (0x7FFFFFFF, 0xC, 4) := by decide
/-- A9 -/
theorem test_addI_clears_carry :
    seen 0 (stepOn ((base.setReg 0 5).setFlags (flagsOf 0xC)) 0x02800000) = some (5, 0x0, 4) := by decide
/-- B3 -/
theorem test_subR_borrows : seen 0 (stepOn (base.setReg 1 1) 0x03010000) = some (0xFFFFFFFF, 0x6, 4) := by decide
/-- B6 -/
theorem test_subR_overflows :
    seen 0 (stepOn ((base.setReg 0 0x7FFFFFFF).setReg 1 0xFFFFFFFF) 0x03010000) = some (0x80000000, 0xE, 4) := by decide
/-- B8 -/
theorem test_subI_negative : seen 0 (stepOn base 0x0380FFFF) = some (1, 0x4, 4) := by decide
/-- B9 -/
theorem test_subI_zero : seen 0 (stepOn (base.setReg 0 1) 0x03800001) = some (0, 0x1, 4) := by decide
/-- L4 -/
theorem test_load_wraps :
    seen 0 (stepOn ((base.putWord 0x100 7).setReg 1 0xFFFFFFFC) 0x04010104) = some (7, 0x0, 4) := by decide
/-- L3 -/
theorem test_load_over_its_base :
    seen 1 (stepOn ((base.putWord 0x100 0).setReg 1 0x100) 0x04110000) = some (0, 0x1, 4) := by decide
/-- L7 -/
theorem test_store_little_endian :
    (stepOn (((base.setReg 2 0x200).setReg 3 0x12345678).setFlags (flagsOf 0xF)) 0x05230000).map
      (fun t => (t.mem.drop 4, t.flags.toWord)) =
    some ([(0x200, 0x78), (0x201, 0x56), (0x202, 0x34), (0x203, 0x12)], 0xF) := by decide
/-- L8 -/
theorem test_store_of_its_base :
    (stepOn (base.setReg 2 0x200) 0x05220008).map (fun t => t.wordAt 0x208) = some 0x200 := by decide
/-- J5 -/
theorem test_jmp_wraps_below : (stepOn (base.setPc 0x20) 0x06008000).map State.pc = some 0xFFFE0024 := by decide
/-- J1 -/
theorem test_jmp_back : (stepOn (base.setPc 0x20) 0x0600FFFE).map State.pc = some 0x1C := by decide
/-- J7, J8 -/
theorem test_jz :
    (stepOn ((base.setPc 0x20).setFlags (flagsOf 1)) 0x07000003).map State.pc = some 0x30 ∧
    (stepOn (base.setPc 0x20) 0x07000003).map State.pc = some 0x24 := by decide
/-- J9, J10 -/
theorem test_jnz :
    (stepOn (base.setPc 0x20) 0x0800FFFF).map State.pc = some 0x20 ∧
    (stepOn ((base.setPc 0x20).setFlags (flagsOf 1)) 0x0800FFFF).map State.pc = some 0x24 := by decide
/-- J12: the first instruction after reset. -/
theorem test_jnz_after_reset : (stepOn State.reset 0x08000005).map State.pc = some 0x18 := by decide
/-- H1 -/
theorem test_halt :
    (stepOn (((base.setPc 0x40).setFlags (flagsOf 0xA)).setReg 3 9) 0xFF000000).map
      (fun t => (t.run, t.pc, t.flags.toWord, t.reg 3)) = some (.halted, 0x40, 0xA, 9) := by decide

/-! ## Faults (95 sections 2.4, 2.7, programs P6 to P9) -/

/-- L5 -/
theorem test_load_misaligned :
    (stepOn (base.setReg 1 0x100) 0x04010002).map (fun t => (t.run, t.pc)) =
    some (.faulted (.misalignedAccess 0x102 .load), 0) := by decide
/-- L6 -/
theorem test_load_unbacked :
    (stepOn (base.setReg 1 0x1000) 0x04010000).map (fun t => (t.run, t.pc)) =
    some (.faulted (.busError 0x1000 (.data .load)), 0) := by decide
/-- L9 -/
theorem test_store_misaligned :
    (stepOn (base.setReg 1 0x200) 0x0510FFFF).map (fun t => (t.run, t.mem.length)) =
    some (.faulted (.misalignedAccess 0x1FF .store), 4) := by decide
/-- P8 -/
theorem test_store_unbacked :
    (stepOn (base.setReg 1 0xFFF8) 0x05100000).map (fun t => (t.run, t.mem.length)) =
    some (.faulted (.busError 0xFFF8 (.data .store)), 4) := by decide
/-- P6 -/
theorem test_illegal_word :
    (stepOn (base.setPc 8) 0x00000000).map (fun t => (t.run, t.pc)) = some (.faulted (.illegalInstruction 0 8), 8) := by decide
/-- P9 -/
theorem test_fetch_unbacked :
    (next? (step (base.setPc 0x20000))).map (fun t => (t.run, t.pc)) =
    some (.faulted (.busError 0x20000 .fetch), 0x20000) := by decide
/-- L10 -/
theorem test_load_bytewise :
    seen 0 (stepOn ({ (base.loadBytes 0x100 [0x11, 0x22, 0x33, 0x44, 0x55, 0x66, 0x77, 0x88]).setReg 1 0x100 with
      cfg := { base.cfg with misaligned := .bytewise } }) 0x04010002) = some (0x66554433, 0x0, 4) := by decide

/-! ## Memory and the host -/

theorem test_reset_memory_wf : Memory.wf State.reset.mem = true := by decide
theorem test_memory_not_rising : Memory.wf [(4, 0), (4, 1)] = false := by decide
theorem test_memory_outside : Memory.wf [(2 ^ 32, 0)] = false := by decide
/-- P1, loaded and run by the host's loop to its end (43_halt.md R150: R0 = 12, pc at the HALT). -/
theorem test_program_sum :
    (next? (runFor .default 4 (base.launch [.movI 0 5, .movI 1 7, .addR 0 1, .halt] []))).map
      (fun t => (t.run, t.pc, t.reg 0)) = some (.halted, 0xC, 12) := by decide

/-! ## The assembler (30_encoding.md R94 to R96; 95 S1 to S9, P2) -/

theorem test_parse_register : parseLine "MOV R1, R0".toList = some [.instr (.movR 1 0)] := by decide
theorem test_parse_hex : parseLine "    MOV   R1, #0x100   ; counter".toList = some [.instr (.movI 1 (.hex 0x100))] := by decide
theorem test_parse_negative : parseLine "ADD R3, #-1".toList = some [.instr (.addI 3 (.dec (-1)))] := by decide
theorem test_parse_load : parseLine "LOAD R0, [R1 + -4]".toList = some [.instr (.load 0 1 (.dec (-4)))] := by decide
theorem test_parse_store : parseLine "STORE R3, [R2 + 0]".toList = some [.instr (.store 3 2 (.dec 0))] := by decide
theorem test_parse_jump : parseLine "JZ +3".toList = some [.instr (.jz (.words 3))] := by decide
theorem test_parse_label : parseLine "loop:".toList = some [.label "loop".toList] := by decide
theorem test_parse_no_pseudo : parseLine "NOP".toList = none := by decide
/-- P2: example 7.2 of the source with its labels. -/
theorem test_assemble_countdown :
    assemble [.instr (.movI 1 (.hex 0x100)), .label "loop".toList, .instr (.load 0 1 (.dec 0)), .instr (.subI 0 (.dec 1)),
      .instr (.store 0 1 (.dec 0)), .instr (.jz (.label "end".toList)), .instr (.jmp (.label "loop".toList)),
      .label "end".toList, .instr .halt] =
    some [.movI 1 0x100, .load 0 1 0, .subI 0 1, .store 0 1 0, .jz 1, .jmp 0xFFFB, .halt] := by decide

end Sys2Proof.Machine.Tests
end

