-- ==== Sys2Proof/Tests/Witnesses.lean ====
section
/-! SUPPORT. For each statement of Certificates/Slice0/Obligations.lean that has hypotheses, a concrete state and operands
that meet all of them together, and each clause of several at a boundary of its range. -/

namespace Sys2Proof.Machine.Tests

/-- The reset state with a HALT at address 0. -/
def atHalt : State := State.reset.withFetchWord 32 0xFF000000

/-- The reset state with `MOV R0, #5` at address 0. -/
def atMov : State := State.reset.withFetchWord 32 0x01800005

/-- The reset state with `STORE R1, [R2 + 4]` at address 0, which stores a HALT over the next word. -/
def atStore : State := (State.reset.withFetchWord 32 0x05210004).setReg 1 0xFF000000

/-- A layout of its own: HALT alone, in the argument bits 7. -/
def haltLayout : ArgsLayout :=
  { decode := fun _ m a => if m = .halt ∧ a = 7 then some .halt else none, encode := fun _ => 7 }

/-- The state with MISALIGNED_POLICY = bytewise. -/
def bytewise (s : State) : State := { s with cfg := { s.cfg with misaligned := .bytewise } }

theorem witness_StrictlyDecodedWordsAreEncodings : decodeWord .default true 0x01100000 = .ok (.movR 1 0) := by decide

theorem witness_LaxDecoderIgnoresUnusedBits :
    opcodeField 0xFF000001 ∈ ([1, 2, 3, 4, 5, 6, 7, 8, 0xFF] : List (BitVec 8)) ∧
    opcodeField 0x09000000 ∉ ([1, 2, 3, 4, 5, 6, 7, 8, 0xFF] : List (BitVec 8)) ∧
    decodeWord .default true 0xFF000000 = .ok .halt := by decide

theorem witness_UndefinedOpcodesAreIllegal :
    opcodeField 0x00FFFFFF = 0 ∧ (opcodeField 0x09000000).toNat = 9 ∧ (opcodeField 0xFEFFFFFF).toNat = 0xFE := by decide

theorem witness_OpcodeByteFixesTheInstruction :
    (∀ m, ArgsLayout.default.decode true m (argsField 0x01100000) = some (.movR 1 0) → (Instr.movR 1 0).mnemonic = m) ∧
    decodeWord .default true 0x01100000 = .ok (.movR 1 0) :=
  ⟨fun m => by cases m <;> decide, by decide⟩

theorem witness_StepRunsTheDecodedInstruction :
    atHalt.run = .running ∧ atHalt.pc.toNat % 4 = 0 ∧ atHalt.backed atHalt.pc = true ∧
    decodeWord .default atHalt.cfg.strictReserved
      (wordOfBytes (atHalt.readByte atHalt.pc) (atHalt.readByte (atHalt.pc + 1)) (atHalt.readByte (atHalt.pc + 2))
        (atHalt.readByte (atHalt.pc + 3))) = .ok .halt := by decide

theorem witness_EveryLayoutRunsWhatItEncodes :
    haltLayout.decode true Instr.halt.mnemonic (haltLayout.encode .halt) = some .halt ∧
    (State.reset.withFetchWord 32 0xFF000007).run = .running ∧
    (State.reset.withFetchWord 32 0xFF000007).pc.toNat % 4 = 0 ∧
    (State.reset.withFetchWord 32 0xFF000007).backed 0 = true ∧
    (State.reset.withFetchWord 32 0xFF000007).wordAt 0 = encodeWith haltLayout .halt := by decide

theorem witness_IllegalWordTakesTheFault :
    (State.reset.withFetchWord 32 0xFF000001).run = .running ∧
    (State.reset.withFetchWord 32 0xFF000001).backed 0 = true ∧
    decodeWord .default true ((State.reset.withFetchWord 32 0xFF000001).wordAt 0) = .error (.illegalArguments .halt 1) := by
  decide

theorem witness_UnbackedFetchTakesBusError :
    (base.setPc 0x1000).run = .running ∧ (base.setPc 0x1000).pc.toNat % 4 = 0 ∧
    (base.setPc 0x1000).backed (base.setPc 0x1000).pc = false := by decide

theorem witness_HaltedStateIsFinal :
    exec .halt atHalt = .next (atHalt.setRun .halted) ∧ (atHalt.setRun .halted).run = .halted := ⟨rfl, rfl⟩

theorem witness_FaultedStateHasNoStep :
    (base.setRun (.faulted (.busError 0 .fetch))).run = .faulted (.busError 0 .fetch) := by decide

theorem witness_MisalignedPcIsRefused :
    (base.setPc 3).run = .running ∧ (base.setPc 3).pc.toNat % 4 ≠ 0 := by decide

/-- A fault of the fetch, at the first address above the memory map. -/
theorem witness_FaultsArePrecise :
    step (base.setPc 0x1000) = .next ((base.setPc 0x1000).enterFault (.busError 0x1000 .fetch)) ∧
    ((base.setPc 0x1000).enterFault (.busError 0x1000 .fetch)).run = .faulted (.busError 0x1000 .fetch) := ⟨rfl, rfl⟩

/-- Each row of the table of fault causes (60_exceptions.md R162) occurs. -/
theorem witness_FaultCausesAreComplete :
    (stepOn base 0).map State.run = some (.faulted (.illegalInstruction 0 0)) ∧
    (next? (step (base.setPc 0x1000))).map State.run = some (.faulted (.busError 0x1000 .fetch)) ∧
    (stepOn (base.setReg 1 0xFFF) 0x04010000).map State.run = some (.faulted (.misalignedAccess 0xFFF .load)) ∧
    (stepOn (base.setReg 1 0x1001) 0x05100000).map State.run = some (.faulted (.misalignedAccess 0x1001 .store)) ∧
    (stepOn (base.setReg 1 0x1000) 0x04010000).map State.run = some (.faulted (.busError 0x1000 (.data .load))) ∧
    (stepOn (bytewise (base.setReg 1 0xFFD)) 0x05100000).map State.run =
      some (.faulted (.busError 0xFFD (.data .store))) := by decide

theorem witness_FullMemoryMapNeverRaisesBusError :
    (∀ x : Word, inMemMap atHalt.cfg x = true) ∧ step atHalt = .next (atHalt.setRun .halted) := by
  refine ⟨fun x => ?_, rfl⟩
  change (regionHolds ⟨0, 2 ^ 32⟩ x || false) = true
  simp only [regionHolds, Bool.or_false, Bool.and_eq_true, decide_eq_true_eq]
  exact ⟨Nat.zero_le _, by have := x.isLt; omega⟩

theorem witness_OnlyHaltHalts :
    step atHalt = .next (atHalt.setRun .halted) ∧ (atHalt.setRun .halted).run = .halted := ⟨rfl, rfl⟩

theorem witness_MovCopiesItsOperand :
    (Instr.movR 0 7 = .movR 0 7 ∧ (0 : Word) = base.reg 7) ∧
    (Instr.movI 0 0x8000 = .movI 0 0x8000 ∧ (0xFFFF8000 : Word) = BitVec.signExtend 32 (0x8000 : Half)) := by decide

theorem witness_AddGivesSumAndFlags :
    (Instr.addR 0 0 = .addR 0 0 ∧ (0 : Word) = base.reg 0) ∧
    (Instr.addI 7 0x7FFF = .addI 7 0x7FFF ∧ (0x7FFF : Word) = BitVec.signExtend 32 (0x7FFF : Half)) := by decide

theorem witness_SubGivesDifferenceAndFlags :
    (Instr.subR 0 0 = .subR 0 0 ∧ (0 : Word) = base.reg 0) ∧
    (Instr.subI 7 0xFFFF = .subI 7 0xFFFF ∧ (0xFFFFFFFF : Word) = BitVec.signExtend 32 (0xFFFF : Half)) := by decide

/-- The last backed word, aligned. -/
theorem witness_LoadReadsTheWord :
    (0xFFC : Word) = (base.setReg 1 0x1000).reg 1 + BitVec.signExtend 32 (0xFFFC : Half) ∧
    (0xFFC : Word).toNat % 4 = 0 ∧ (base.setReg 1 0x1000).backed 0xFFC = true := by decide

/-- The word across the top of the address space, bytewise. -/
theorem witness_LoadReadsTheWord_bytewise :
    (0xFFFFFFFE : Word) = (bytewise State.reset).reg 1 + BitVec.signExtend 32 (0xFFFE : Half) ∧
    (bytewise State.reset).cfg.misaligned = .bytewise ∧ (bytewise State.reset).backed 0xFFFFFFFE = true := by decide

/-- The first backed word, from a base register above it. -/
theorem witness_StoreWritesTheWord :
    (0 : Word) = (base.setReg 2 0x8000).reg 2 + BitVec.signExtend 32 (0x8000 : Half) ∧
    (0 : Word).toNat % 4 = 0 ∧ (base.setReg 2 0x8000).backed 0 = true := by decide

theorem witness_MisalignedDataAccessTakesTheFault :
    (1 : Word) = base.reg 1 + BitVec.signExtend 32 (1 : Half) ∧ base.cfg.misaligned = .fault ∧ (1 : Word).toNat % 4 ≠ 0 := by
  decide

theorem witness_UnbackedDataAccessTakesBusError :
    (0x1000 : Word) = base.reg 1 + BitVec.signExtend 32 (0x1000 : Half) ∧ (0x1000 : Word).toNat % 4 = 0 ∧
    base.backed 0x1000 = false := by decide

/-- Half in and half out of the memory map, bytewise. -/
theorem witness_UnbackedDataAccessTakesBusError_bytewise :
    (0xFFE : Word) = (bytewise base).reg 1 + BitVec.signExtend 32 (0xFFE : Half) ∧
    (bytewise base).cfg.misaligned = .bytewise ∧ (bytewise base).backed 0xFFE = false := by decide

theorem witness_FrameOfMovAddSub :
    Instr.addR 0 0 ∈ [Instr.movR 0 0, .movI 0 1, .addR 0 0, .addI 0 1, .subR 0 0, .subI 0 1] ∧
    exec (.addR 0 0) base = .next (base.addInto 0 0) ∧
    (Instr.movR 0 0).mnemonic = .mov ∧ exec (.movR 0 0) base = .next (base.moveInto 0 0) :=
  ⟨by decide, rfl, rfl, rfl⟩

/-- A LOAD that completes and one that faults. -/
theorem witness_FrameOfLoad :
    exec (.load 0 1 0) atHalt = .next (atHalt.moveInto 0 0xFF000000) ∧
    exec (.load 0 1 2) atHalt = .next (atHalt.enterFault (.misalignedAccess 2 .load)) := ⟨rfl, rfl⟩

/-- A STORE that completes and one that faults. -/
theorem witness_FrameOfStore :
    exec (.store 1 2 4) atStore = .next (atStore.putWord 4 0xFF000000).advance ∧
    (4 : Word) = atStore.effectiveAddress 2 4 ∧ (8 : Word) ≠ 4 ∧ (8 : Word) ≠ 4 + 1 ∧ (8 : Word) ≠ 4 + 2 ∧ (8 : Word) ≠ 4 + 3 ∧
    exec (.store 1 2 2) atStore = .next (atStore.enterFault (.misalignedAccess 2 .store)) :=
  ⟨rfl, by decide, by decide, by decide, by decide, by decide, rfl⟩

theorem witness_FrameOfJumpsAndHalt :
    Instr.jz 3 ∈ [Instr.jmp 3, .jz 3, .jnz 3, .halt] ∧ Instr.halt ∈ [Instr.jmp 3, .jz 3, .jnz 3, .halt] ∧
    exec (.jz 3) base = .next (base.setPc 4) ∧ exec .halt base = .next (base.setRun .halted) :=
  ⟨by decide, by decide, rfl, rfl⟩

/-- A register changed; a register a STORE has no part in; the destination of a LOAD that completes. -/
theorem witness_RegistersWrittenAndRead :
    (step atMov = .next (atMov.moveInto 0 5) ∧ (atMov.moveInto 0 5).reg 0 ≠ atMov.reg 0) ∧
    ((7 : Reg) ∉ readRegs (.store 1 2 4) ∧ destReg (.store 1 2 4) ≠ some 7) ∧
    ((0 : Reg) ∉ readRegs (.load 0 1 0) ∧ destReg (.load 0 1 0) = some 0 ∧
      exec (.load 0 1 0) atHalt = .next (atHalt.moveInto 0 0xFF000000) ∧
      ∀ c, atHalt.moveInto 0 0xFF000000 ≠ atHalt.enterFault c) :=
  ⟨⟨rfl, by decide⟩, by decide, by decide, rfl, rfl, fun _ h => absurd (congrArg State.pc h) (show (4 : Word) ≠ 0 by decide)⟩

/-- The last of the four stored bytes, over a byte loaded with another value. -/
theorem witness_OnlyStoreChangesMemory :
    step (atStore.writeByte 7 1) = .next ((atStore.writeByte 7 1).putWord 4 0xFF000000).advance ∧
    ((atStore.writeByte 7 1).putWord 4 0xFF000000).advance.readByte 7 ≠ (atStore.writeByte 7 1).readByte 7 :=
  ⟨rfl, by decide⟩

theorem witness_NoStepChangesSpOrParameters : step atStore = .next (atStore.putWord 4 0xFF000000).advance := rfl

theorem witness_StepKeepsTheInvariant :
    atStore.Inv ∧ step atStore = .next (atStore.putWord 4 0xFF000000).advance := ⟨⟨rfl, rfl, rfl⟩, rfl⟩

theorem witness_ResetMeetsTheInvariant : (atHalt.setRun .halted).hostReset.isLaunch :=
  ⟨atHalt.setRun .halted, by decide, rfl⟩

theorem witness_ReachableStatesMeetTheInvariant :
    atHalt.isLaunch ∧ Reaches atHalt (atHalt.setRun .halted) :=
  ⟨⟨atHalt, by decide, rfl⟩, .tail (.refl _) rfl⟩

/-- Data right behind the first word, and data that ends at the top of the address space. -/
theorem witness_LaunchRunsTheFirstInstruction :
    ([Instr.halt] : List Instr).length < 2 ^ 30 - 1 ∧ base.backed 0 = true ∧
    ∀ d ∈ ([(4, [5]), (0xFFFFFFFE, [1, 2])] : List (Word × List Byte)), ∀ k, k < d.2.length →
      4 ≤ (d.1 + BitVec.ofNat 32 k).toNat := by
  decide

theorem witness_HaltedRunsStayHalted :
    runFor .default 1 atHalt = .next (atHalt.setRun .halted) ∧ (atHalt.setRun .halted).run = .halted := ⟨rfl, rfl⟩

theorem witness_OnlyZIsRead :
    (flagsOf 0xE).z = base.flags.z ∧ exec (.addR 0 1) base = .next (base.addInto 0 0) ∧
    exec (.addR 0 1) { base with flags := flagsOf 0xE } = .next ({ base with flags := flagsOf 0xE }.addInto 0 0) ∧
    (Instr.addR 0 1).mnemonic = .add ∧ (Instr.subR 0 1).mnemonic = .sub := ⟨by decide, rfl, rfl, rfl, rfl⟩

/-- A MOV, a LOAD that completes, a JMP and a LOAD that faults: the clauses on the flags. -/
theorem witness_OnlyZIsRead_flags :
    (Instr.movR 0 1).mnemonic = .mov ∧ exec (.movR 0 1) base = .next (base.moveInto 0 0) ∧
    ((Instr.load 0 1 0).mnemonic = .load ∧ exec (.load 0 1 0) atHalt = .next (atHalt.moveInto 0 0xFF000000) ∧
      ∀ c, atHalt.moveInto 0 0xFF000000 ≠ atHalt.enterFault c) ∧
    (Instr.jmp 0).mnemonic ∈ ([.store, .jmp, .jz, .jnz, .halt] : List Mnemonic) ∧
    exec (.load 0 1 1) base = .next (base.enterFault (.misalignedAccess 1 .load)) :=
  ⟨rfl, rfl, ⟨rfl, rfl, fun _ h => absurd (congrArg State.pc h) (show ¬ (4 : Word) = 0 by decide)⟩, by decide, rfl⟩

theorem witness_EveryInstructionAnswersANextState :
    base.dataFault (base.effectiveAddress 1 1) .load = some (.misalignedAccess 1 .load) ∧
    base.dataFault (base.effectiveAddress 1 2) .store = some (.misalignedAccess 2 .store) := by decide

theorem witness_RegistersAreInterchangeable :
    exec (.load 0 1 0) atHalt = .next (atHalt.moveInto 0 0xFF000000) ∧
    ∀ c, atHalt.moveInto 0 0xFF000000 ≠ atHalt.enterFault c :=
  ⟨rfl, fun _ h => absurd (congrArg State.pc h) (show ¬ (4 : Word) = 0 by decide)⟩

theorem witness_ZeroAndNegativeFlags :
    destReg (.load 0 1 0) = some 0 ∧ atHalt.run = .running ∧
    exec (.load 0 1 0) atHalt = .next (atHalt.moveInto 0 0xFF000000) ∧
    (∀ c, (atHalt.moveInto 0 0xFF000000).run ≠ .faulted c) := ⟨rfl, rfl, rfl, nofun⟩

theorem witness_PcAdvanceOfEachInstruction :
    atStore.run = .running ∧ exec (.store 1 2 4) atStore = .next (atStore.putWord 4 0xFF000000).advance ∧
    (∀ c, (atStore.putWord 4 0xFF000000).advance.run ≠ .faulted c) := ⟨rfl, rfl, nofun⟩

/-- Both forms of ADD and of SUB have their second operand. -/
theorem witness_CarryIsBit32OfTheWideResult :
    (Instr.addI 0 0xFFFF = .addI 0 0xFFFF ∧ (0xFFFFFFFF : Word) = BitVec.signExtend 32 (0xFFFF : Half)) ∧
    (Instr.subR 0 1 = .subR 0 1 ∧ (0 : Word) = base.reg 1) := by decide

theorem witness_SubIsAddOfTheTwosComplement :
    Instr.subI 0 0x8000 = .subI 0 0x8000 ∧ (0xFFFF8000 : Word) = BitVec.signExtend 32 (0x8000 : Half) := by decide

/-- The bits 16 and 31 of the extension, and a widening to 64 bits. -/
theorem witness_SignExtensionOfImmediates :
    (16 : Nat) ≤ 16 ∧ (16 : Nat) < 32 ∧ (16 : Nat) ≤ 31 ∧ (31 : Nat) < 32 ∧ (32 : Nat) ≤ 64 := by decide

/-- Each jump taken, at the offsets 0, -1, -2 and +32767. -/
theorem witness_JumpTargetsCountInstructions :
    exec (.jmp 0) base = .next (base.setPc 4) ∧ exec (.jmp 0xFFFF) base = .next (base.setPc 0) ∧
    ((base.setFlags (flagsOf 1)).flags.z = true ∧
      exec (.jz 0xFFFE) (base.setFlags (flagsOf 1)) = .next ((base.setFlags (flagsOf 1)).setPc 0xFFFFFFFC)) ∧
    (base.flags.z = false ∧ exec (.jnz 0x7FFF) base = .next (base.setPc 0x20000)) ∧
    (32767 : Nat) ≤ 32767 ∧ (0x7FFF : Half) = BitVec.ofNat 16 32767 :=
  ⟨rfl, rfl, ⟨rfl, rfl⟩, ⟨rfl, rfl⟩, by decide, by decide⟩

theorem witness_LoadAfterStoreGivesTheValue :
    atStore.run = .running ∧ exec (.store 1 2 4) atStore = .next (atStore.putWord 4 0xFF000000).advance ∧
    (atStore.putWord 4 0xFF000000).advance.run = .running ∧
    (atStore.putWord 4 0xFF000000).advance.reg 3 + BitVec.signExtend 32 (4 : Half) =
      atStore.reg 2 + BitVec.signExtend 32 (4 : Half) ∧
    exec (.load 0 3 4) (atStore.putWord 4 0xFF000000).advance =
      .next ((atStore.putWord 4 0xFF000000).advance.moveInto 0 0xFF000000) := ⟨rfl, rfl, rfl, by decide, rfl⟩

theorem witness_StoredWordIsFetched :
    atStore.run = .running ∧ atStore.pc.toNat % 4 = 0 ∧
    exec (.store 1 2 4) atStore = .next (atStore.putWord 4 0xFF000000).advance ∧
    (atStore.putWord 4 0xFF000000).advance.run = .running ∧
    atStore.reg 2 + BitVec.signExtend 32 (4 : Half) = atStore.pc + 4 ∧
    decodeWord .default atStore.cfg.strictReserved (atStore.reg 1) = .ok .halt :=
  ⟨rfl, rfl, rfl, rfl, by decide, by decide⟩

/-- The word across the top of the address space (20_memory.md R68). -/
theorem witness_BytewisePolicyIgnoresAlignment :
    (bytewise State.reset).cfg.misaligned = .bytewise ∧
    (0xFFFFFFFE : Word) = (bytewise State.reset).effectiveAddress 1 0xFFFE ∧
    (bytewise State.reset).backed 0xFFFFFFFE = true := by decide

/-- JMP loop of example 7.2: from 0x14 to 0x04 is -5. -/
theorem witness_LabelOffsetsReachTheLabel :
    0x14 < 2 ^ 32 ∧ 0x04 < 2 ^ 32 ∧ labelOffset 0x14 0x04 = some 0xFFFB ∧
    (State.reset.setPc 0x14).pc = BitVec.ofNat 32 0x14 ∧
    exec (.jmp 0xFFFB) (State.reset.setPc 0x14) = .next ((State.reset.setPc 0x14).setPc 0x04) :=
  ⟨by decide, by decide, by decide, rfl, rfl⟩

theorem witness_AssemblerRefusesOutOfRange :
    (Source.movI 0 (.dec 32768)).wellFormed = false ∧ (Source.jz (.words (-32769))).wellFormed = false ∧
    (Source.jmp (.words (-32768))).wellFormed = true ∧
    (∀ name, Source.jmp (.words (-32768)) ≠ .jmp (.label name) ∧ Source.jmp (.words (-32768)) ≠ .jz (.label name) ∧
      Source.jmp (.words (-32768)) ≠ .jnz (.label name)) :=
  ⟨by decide, by decide, by decide, fun _ => ⟨nofun, nofun, nofun⟩⟩

end Sys2Proof.Machine.Tests
end

/-! The sign-extended immediate `sext32`, read bit by bit and as a signed integer (00_scope.md R8). -/

namespace Sys2Proof.Machine

theorem getLsbD_sext32 (i : Half) (k : Nat) :
    (sext32 i).getLsbD k = (decide (k < 32) && if k < 16 then i.getLsbD k else i.msb) :=
  BitVec.getLsbD_signExtend i

theorem getLsbD_sext32_of_lt (i : Half) {k : Nat} (hk : k < 16) : (sext32 i).getLsbD k = i.getLsbD k := by
  have hk32 : k < 32 := by omega
  rw [getLsbD_sext32, if_pos hk, decide_eq_true hk32, Bool.true_and]

theorem getLsbD_sext32_of_ge (i : Half) {k : Nat} (h16 : 16 ≤ k) (h32 : k < 32) :
    (sext32 i).getLsbD k = i.getLsbD 15 := by
  rw [getLsbD_sext32, if_neg h16.not_gt, decide_eq_true h32, Bool.true_and, BitVec.msb_eq_getLsbD_last]

@[simp] theorem extractLsb'_sext32 (i : Half) : BitVec.extractLsb' 0 16 (sext32 i) = i := by
  apply BitVec.eq_of_getLsbD_eq
  intro k hk
  rw [BitVec.getLsbD_extractLsb', decide_eq_true hk, Bool.true_and, Nat.zero_add, getLsbD_sext32_of_lt i hk]

@[simp] theorem toInt_sext32 (i : Half) : (sext32 i).toInt = i.toInt :=
  BitVec.toInt_signExtend_of_le (by decide)

/-- The bound `0x8000` is where bit 15, the sign bit, begins to be set. -/
theorem Half.toInt_eq_ite (i : Half) :
    i.toInt = if i.toNat < 0x8000 then (i.toNat : Int) else (i.toNat : Int) - 0x10000 := by
  have hsign : 2 * i.toNat < 2 ^ 16 ↔ i.toNat < 0x8000 := by omega
  simp only [BitVec.toInt_eq_toNat_cond, hsign]
  rfl

/-- Settles O50. The sign extension is read bit by bit on each side of bit 16; as an integer it is the immediate's own
signed value, whose range is that of 16 bits. -/
theorem signExtensionOfImmediates : Obligations.SignExtensionOfImmediates := by
  refine ⟨fun i => ⟨extractLsb'_sext32 i, fun k => getLsbD_sext32_of_ge i, ?value, ?lower, ?upper⟩,
    fun n v => BitVec.toNat_setWidth_of_le⟩
  case value => rw [toInt_sext32, Half.toInt_eq_ite]
  case lower => simpa using i.le_toInt
  case upper => simpa using i.toInt_le

end Sys2Proof.Machine

/-! FLAGS as a 32-bit register: each flag appended below the others doubles the value and adds its own bit
(10_state.md R28, R29). -/

namespace Sys2Proof.Machine

theorem toNat_append_bitOf {w : Nat} (x : BitVec w) (b : Bool) : (x ++ bitOf b).toNat = x.toNat * 2 + b.toNat :=
  BitVec.toNat_concat x b

theorem Flags.toNat_toWord (f : Flags) :
    f.toWord.toNat = f.z.toNat + 2 * f.n.toNat + 4 * f.c.toNat + 8 * f.v.toNat := by
  have hv : (bitOf f.v).toNat = f.v.toNat := BitVec.toNat_ofBool f.v
  have hwiden : f.toWord.toNat = (bitOf f.v ++ bitOf f.c ++ bitOf f.n ++ bitOf f.z).toNat :=
    BitVec.toNat_setWidth_of_le (by decide)
  simp only [hwiden, toNat_append_bitOf, hv]
  omega

theorem Flags.toNat_toWord_lt (f : Flags) : f.toWord.toNat < 16 := by
  have hz := f.z.toNat_le
  have hn := f.n.toNat_le
  have hc := f.c.toNat_le
  have hv := f.v.toNat_le
  rw [Flags.toNat_toWord]
  omega

/-- Settles O41. The bits are in place by the definition of FLAGS; their weights give the bound. -/
theorem flagsOccupyTheLowFourBits : Obligations.FlagsOccupyTheLowFourBits :=
  ⟨fun s => ⟨rfl, s.flags.toNat_toWord, s.flags.toNat_toWord_lt⟩, rfl⟩

end Sys2Proof.Machine

/-! `exec` in one equation: the fault of the data access, if there is one, else the state the instruction leaves when it
completes (10_state.md R37, 60_exceptions.md R161). -/

namespace Sys2Proof.Machine

/-- The fault that the data access of an instruction raises; only LOAD and STORE access data. -/
def accessFault (s : State) : Instr → Option FaultCause
  | .load _ rs imm16 => s.dataFault (s.effectiveAddress rs imm16) .load
  | .store _ rd imm16 => s.dataFault (s.effectiveAddress rd imm16) .store
  | _ => none

/-- The state that an instruction leaves when its data access, if it has one, raises nothing. -/
def completion (s : State) : Instr → State
  | .movR rd rs => s.moveInto rd (s.reg rs)
  | .movI rd imm16 => s.moveInto rd (sext32 imm16)
  | .addR rd rs => s.addInto rd (s.reg rs)
  | .addI rd imm16 => s.addInto rd (sext32 imm16)
  | .subR rd rs => s.subInto rd (s.reg rs)
  | .subI rd imm16 => s.subInto rd (sext32 imm16)
  | .load rd rs imm16 => s.moveInto rd (s.wordAt (s.effectiveAddress rs imm16))
  | .store rs rd imm16 => (s.putWord (s.effectiveAddress rd imm16) (s.reg rs)).advance
  | .jmp offset16 => s.jumpIf true offset16
  | .jz offset16 => s.jumpIf s.flags.z offset16
  | .jnz offset16 => s.jumpIf (!s.flags.z) offset16
  | .halt => s.setRun .halted

theorem exec_eq (i : Instr) (s : State) :
    exec i s = .next ((accessFault s i).elim (completion s i) s.enterFault) := by
  cases i with
  | load rd rs imm16 =>
    obtain ⟨c, hfault, hexec⟩ | ⟨hfault, hexec⟩ := execLoad_cases rd rs imm16 s <;>
      simp only [accessFault, hfault] <;> exact hexec
  | store rs rd imm16 =>
    obtain ⟨c, hfault, hexec⟩ | ⟨hfault, hexec⟩ := execStore_cases rs rd imm16 s <;>
      simp only [accessFault, hfault] <;> exact hexec
  | _ => rfl

/-- An instruction either faults or completes. -/
theorem exec_next_cases {i : Instr} {s t : State} (h : exec i s = .next t) :
    (∃ c, t = s.enterFault c) ∨ t = completion s i := by
  rw [exec_eq] at h
  injection h with h
  cases hfault : accessFault s i with
  | none => exact .inr (by rw [← h, hfault]; rfl)
  | some c => exact .inl ⟨c, by rw [← h, hfault]; rfl⟩

theorem State.pc_jumpIf (s : State) (taken : Bool) (offset16 : Half) :
    (s.jumpIf taken offset16).pc = if taken then s.jumpTarget offset16 else s.pc + 4 :=
  congrArg State.pc (s.jumpIf_eq taken offset16)

theorem State.reg_jumpIf (s : State) (taken : Bool) (offset16 : Half) (q : Reg) :
    (s.jumpIf taken offset16).reg q = s.reg q := by
  rw [State.jumpIf_eq, State.reg_setPc]

/-- Settles O49. The instruction completes, as a faulted state is excluded; a jump's `pc` is the target or the next
instruction by its condition, the other instructions advance or leave it. -/
theorem pcAdvanceOfEachInstruction : Obligations.PcAdvanceOfEachInstruction := by
  intro i s t _ hexec hrun
  obtain ⟨c, rfl⟩ | rfl := exec_next_cases hexec
  · exact absurd rfl (hrun c)
  cases i with
  | jz offset16 => exact s.pc_jumpIf s.flags.z offset16
  | jnz offset16 =>
    refine (s.pc_jumpIf (!s.flags.z) offset16).trans ?_
    cases s.flags.z <;> rfl
  | _ => rfl

end Sys2Proof.Machine

/-! Renaming the registers of a state: what it does to each field and register, and that every update and every reading
of a state commutes with it (10_state.md R21). -/

namespace Sys2Proof.Machine

section Renaming

variable (p : Equiv.Perm Reg) (s : State)

theorem reg_renameState_symm (q : Reg) : (renameState p s).reg q = s.reg (p.symm q) := by
  simp [renameState, State.reg]

@[simp] theorem reg_renameState (r : Reg) : (renameState p s).reg (p r) = s.reg r := by
  rw [reg_renameState_symm, Equiv.symm_apply_apply]

@[simp] theorem renameState_pc : (renameState p s).pc = s.pc := rfl
@[simp] theorem renameState_flags : (renameState p s).flags = s.flags := rfl

@[simp] theorem effectiveAddress_renameState (base : Reg) (imm16 : Half) :
    (renameState p s).effectiveAddress (p base) imm16 = s.effectiveAddress base imm16 := by
  simp only [State.effectiveAddress, reg_renameState]

@[simp] theorem wordAt_renameState (a : Word) : (renameState p s).wordAt a = s.wordAt a := State.wordAt_congr rfl a

@[simp] theorem dataFault_renameState (a : Word) (d : DataAccess) : (renameState p s).dataFault a d = s.dataFault a d :=
  State.dataFault_congr rfl a d

theorem renameState_advance : renameState p s.advance = (renameState p s).advance := rfl
theorem renameState_setPc (v : Word) : renameState p (s.setPc v) = (renameState p s).setPc v := rfl
theorem renameState_setFlags (f : Flags) : renameState p (s.setFlags f) = (renameState p s).setFlags f := rfl
theorem renameState_putWord (a v : Word) : renameState p (s.putWord a v) = (renameState p s).putWord a v := rfl
theorem renameState_enterFault (c : FaultCause) : renameState p (s.enterFault c) = (renameState p s).enterFault c := rfl

theorem renameState_setReg (r : Reg) (v : Word) :
    renameState p (s.setReg r v) = (renameState p s).setReg (p r) v := by
  refine State.ext_reg (fun q => ?_) rfl rfl rfl rfl rfl rfl
  simp only [reg_renameState_symm, State.reg_setReg, Equiv.eq_symm_apply]

theorem renameState_moveInto (rd : Reg) (src : Word) :
    renameState p (s.moveInto rd src) = (renameState p s).moveInto (p rd) src := by
  simp only [State.moveInto, renameState_advance, renameState_setFlags, renameState_setReg, renameState_flags]

theorem renameState_addInto (rd : Reg) (src : Word) :
    renameState p (s.addInto rd src) = (renameState p s).addInto (p rd) src := by
  simp only [State.addInto, renameState_advance, renameState_setFlags, renameState_setReg, reg_renameState]

theorem renameState_subInto (rd : Reg) (src : Word) :
    renameState p (s.subInto rd src) = (renameState p s).subInto (p rd) src := by
  simp only [State.subInto, renameState_advance, renameState_setFlags, renameState_setReg, reg_renameState]

theorem renameState_jumpIf (taken : Bool) (offset16 : Half) :
    renameState p (s.jumpIf taken offset16) = (renameState p s).jumpIf taken offset16 := by
  simp only [State.jumpIf_eq, renameState_setPc, renameState_pc, State.jumpTarget]

theorem accessFault_rename (i : Instr) : accessFault (renameState p s) (renameInstr p i) = accessFault s i := by
  cases i <;> simp only [renameInstr, accessFault, effectiveAddress_renameState, dataFault_renameState]

theorem completion_rename (i : Instr) :
    completion (renameState p s) (renameInstr p i) = renameState p (completion s i) := by
  cases i with
  | movR | movI | load => simp only [renameInstr, completion, renameState_moveInto, reg_renameState,
      wordAt_renameState, effectiveAddress_renameState]
  | addR | addI => simp only [renameInstr, completion, renameState_addInto, reg_renameState]
  | subR | subI => simp only [renameInstr, completion, renameState_subInto, reg_renameState]
  | store => simp only [renameInstr, completion, renameState_advance, renameState_putWord, reg_renameState,
      effectiveAddress_renameState]
  | jmp | jz | jnz => simp only [renameInstr, completion, renameState_jumpIf, renameState_flags]
  | halt => rfl

theorem exec_rename (i : Instr) :
    exec (renameInstr p i) (renameState p s) = mapNext (renameState p) (exec i s) := by
  rw [exec_eq, exec_eq, accessFault_rename, completion_rename]
  cases accessFault s i with
  | none => rfl
  | some c => exact congrArg _ (renameState_enterFault p s c).symm

end Renaming

/-- Settles O45. Renaming commutes with the access fault and with the completion, so with `exec`; MOV leaves its operand
in Rd; and what a completed instruction leaves in a register is read off the operation its two forms share. -/
theorem registersAreInterchangeable : Obligations.RegistersAreInterchangeable := by
  refine ⟨fun p i s => exec_rename p s i, fun s rd rs imm16 => ⟨⟨_, rfl, ?movR⟩, ⟨_, rfl, ?movI⟩⟩, ?completed⟩
  case movR => exact (s.reg_moveInto rd _ rd).trans (if_pos rfl)
  case movI => exact (s.reg_moveInto rd _ rd).trans (if_pos rfl)
  case completed =>
    intro i s t q hexec hcompletes
    obtain ⟨c, rfl⟩ | rfl := exec_next_cases hexec
    · exact absurd rfl (hcompletes c)
    cases i with
    | movR rd | movI rd | load rd => exact (s.reg_moveInto rd _ q).trans (if_congr eq_comm rfl rfl)
    | addR rd | addI rd => exact (s.reg_addInto rd _ q).trans (if_congr eq_comm rfl rfl)
    | subR rd | subI rd => exact (s.reg_subInto rd _ q).trans (if_congr eq_comm rfl rfl)
    | store => rfl
    | jmp | jz | jnz => exact s.reg_jumpIf _ _ q
    | halt => rfl

end Sys2Proof.Machine

/-! MOV, ADD, SUB and LOAD: the value left in the destination register and the Z and N flags of it
(40_move_arith.md R110, R117). -/

namespace Sys2Proof.Machine

section Destination

variable (s : State) (rd : Reg) (src : Word)

@[simp] theorem State.reg_moveInto_same : (s.moveInto rd src).reg rd = src := by
  rw [State.reg_moveInto, if_pos rfl]

@[simp] theorem State.reg_addInto_same : (s.addInto rd src).reg rd = s.reg rd + src := by
  rw [State.reg_addInto, if_pos rfl]

@[simp] theorem State.reg_subInto_same : (s.subInto rd src).reg rd = s.reg rd - src := by
  rw [State.reg_subInto, if_pos rfl]

end Destination

/-- Settles O51. Each operation leaves in Rd its value at the operand it is given, and `exec` gives it the operand read
from the state before. -/
theorem secondOperandByForm : Obligations.SecondOperandByForm := fun s rd rs imm16 =>
  ⟨⟨_, rfl, s.reg_moveInto_same rd (s.reg rs)⟩, ⟨_, rfl, s.reg_moveInto_same rd (sext32 imm16)⟩,
    ⟨_, rfl, s.reg_addInto_same rd (s.reg rs)⟩, ⟨_, rfl, s.reg_addInto_same rd (sext32 imm16)⟩,
    ⟨_, rfl, s.reg_subInto_same rd (s.reg rs)⟩, ⟨_, rfl, s.reg_subInto_same rd (sext32 imm16)⟩⟩

theorem flagZ_eq_ite (r : Word) : flagZ r = if r = 0 then true else false := by
  simp [flagZ, Bool.beq_eq_decide_eq]

/-- Bit 31 of the value 0 is 0. -/
theorem not_flagZ_and_flagN (r : Word) : ¬ (flagZ r = true ∧ flagN r = true) := by
  rintro ⟨hz, hn⟩
  obtain rfl : r = 0 := eq_of_beq hz
  exact absurd hn (by decide)

/-- The idea of R117 in one equation: setting Z and N again from the value now in the destination changes no flag. -/
theorem flags_completion_withZN {i : Instr} {rd : Reg} (s : State) (hrd : destReg i = some rd) :
    (completion s i).flags.withZN ((completion s i).reg rd) = (completion s i).flags := by
  cases i with
  | movR | movI | load =>
    cases hrd
    simp only [completion, State.reg_moveInto_same, State.moveInto_flags, Flags.withZN]
  | addR | addI =>
    cases hrd
    simp only [completion, State.reg_addInto_same, State.addInto_flags, Flags.withZN, flagsOfAdd]
  | subR | subI =>
    cases hrd
    simp only [completion, State.reg_subInto_same, State.subInto_flags, Flags.withZN, flagsOfSub]
  | store | jmp | jz | jnz | halt => exact absurd hrd nofun

/-- Settles O48. The instruction completes, as a faulted state is excluded, and so leaves Z and N of the destination. -/
theorem zeroAndNegativeFlags : Obligations.ZeroAndNegativeFlags := by
  intro i rd s t hrd _ hexec hrun
  obtain ⟨c, rfl⟩ | rfl := exec_next_cases hexec
  · exact absurd rfl (hrun c)
  have hflags := flags_completion_withZN s hrd
  have hz : (completion s i).flags.z = flagZ ((completion s i).reg rd) := congrArg Flags.z hflags.symm
  have hn : (completion s i).flags.n = flagN ((completion s i).reg rd) := congrArg Flags.n hflags.symm
  rw [hz, hn]
  exact ⟨flagZ_eq_ite _, rfl, not_flagZ_and_flagN _⟩

end Sys2Proof.Machine

/-! The default argument layout in both directions: the operand readers on the packed fields that the encoder lays out,
and the fields of the argument bits that a reader accepts (30_encoding.md R84, R89, R93, R98). -/

namespace Sys2Proof

theorem acceptUnused_true (strict : Bool) (i : Instr) : acceptUnused strict true i = some i := by
  cases strict <;> rfl

section Reading

variable (strict : Bool) (regForm : Reg → Reg → Instr) (immForm : Reg → Half → Instr) (form : Half → Instr)

theorem decodeTwoForms_regForm (rd rs : Reg) :
    decodeTwoForms strict (mkArgs 0 (bitsOfReg rd) 0 (bitsOfReg rs) 0) regForm immForm = some (regForm rd rs) := by
  simp [decodeTwoForms, argSel_mkArgs, argRd_mkArgs, argZ19_mkArgs, argRs_mkArgs, argImm_mkArgs, regOfBits_bitsOfReg,
    acceptUnused_true]

theorem decodeTwoForms_immForm (rd : Reg) (imm16 : Half) :
    decodeTwoForms strict (mkArgs 1 (bitsOfReg rd) 0 0 imm16) regForm immForm = some (immForm rd imm16) := by
  simp [decodeTwoForms, argSel_mkArgs, argRd_mkArgs, argZ19_mkArgs, argRs_mkArgs, argImm_mkArgs, regOfBits_bitsOfReg,
    acceptUnused_true]

theorem decodeJump_mkArgs (offset16 : Half) :
    decodeJump strict (mkArgs 0 0 0 0 offset16) form = some (form offset16) := by
  simp [decodeJump, argSel_mkArgs, argRd_mkArgs, argZ19_mkArgs, argRs_mkArgs, argImm_mkArgs, acceptUnused_true]

/-- The decoder of the default layout reads back what its encoder lays out. -/
theorem decodeArgs_encodeArgs (i : Instr) : decodeArgs strict i.mnemonic (encodeArgs i) = some i := by
  cases i with
  | movR rd rs | addR rd rs | subR rd rs => exact decodeTwoForms_regForm strict _ _ rd rs
  | movI rd imm16 | addI rd imm16 | subI rd imm16 => exact decodeTwoForms_immForm strict _ _ rd imm16
  | load | store =>
    simp [decodeArgs, encodeArgs, Instr.mnemonic, argSel_mkArgs, argRd_mkArgs, argZ19_mkArgs, argRs_mkArgs,
      argImm_mkArgs, regOfBits_bitsOfReg, acceptUnused_true]
  | jmp offset16 | jz offset16 | jnz offset16 => exact decodeJump_mkArgs strict _ offset16
  | halt => exact acceptUnused_true strict .halt

end Reading

/-- A layout that reads back what it lays out makes a word that decodes to its instruction (30_encoding.md R81). -/
theorem decodeWord_encodeWith {L : ArgsLayout} {strict : Bool} {i : Instr}
    (hback : L.decode strict i.mnemonic (L.encode i) = some i) : decodeWord L strict (encodeWith L i) = .ok i := by
  refine decodeWord_eq_ok.2 ⟨i.mnemonic, ?opcode, ?args⟩
  case opcode => rw [encodeWith, opcodeField_append, mnemonicOf_opcodeOf]
  case args => rw [encodeWith, argsField_append, hback]

theorem decodeWord_encode (strict : Bool) (i : Instr) : decodeWord .default strict (encode i) = .ok i :=
  decodeWord_encodeWith (decodeArgs_encodeArgs strict i)

/-- The bytes of a word that decodes are read as that instruction, whatever follows them. -/
theorem decodeBytes_bytesOfWord {L : ArgsLayout} {strict : Bool} {w : Word} {i : Instr}
    (h : decodeWord L strict w = .ok i) (rest : List Byte) :
    decodeBytes L strict (bytesOfWord w ++ rest) = .ok (i, rest) := by
  simp only [bytesOfWord, List.cons_append, List.nil_append, decodeBytes]
  rw [Machine.wordOfBytes_byteOfWord, h]

/-- Settles O1. The argument decoder reads the packed fields back, and a word is put together again from its bytes. -/
theorem encodedInstructionsDecodeBack : Obligations.EncodedInstructionsDecodeBack := fun strict i rest =>
  ⟨decodeWord_encode strict i, decodeBytes_bytesOfWord (decodeWord_encode strict i) rest⟩

end Sys2Proof

/-! What the default decoder accepts: the operand readers inverted, the mnemonic and the unused bits of what they
answer, and the opcode byte as a number (30_encoding.md R83, R89, R90, R93). -/

namespace Sys2Proof

theorem mnemonicOf_eq_some {op : BitVec 8} {m : Mnemonic} : mnemonicOf op = some m ↔ op = opcodeOf m :=
  ⟨opcodeOf_of_mnemonicOf, fun h => h ▸ mnemonicOf_opcodeOf m⟩

theorem argSel_eq_one {a : Args} : argSel a = 1 ↔ argSel a ≠ 0 := by
  generalize argSel a = b
  revert b; decide

section Readers

variable {strict : Bool} {a : Args} {regForm : Reg → Reg → Instr} {immForm : Reg → Half → Instr} {form : Half → Instr}
  {i : Instr}

theorem decodeTwoForms_eq_some :
    decodeTwoForms strict a regForm immForm = some i ↔
      (argSel a = 0 ∧ (strict = false ∨ argZ19 a = 0 ∧ argImm a = 0) ∧
        regForm (regOfBits (argRd a)) (regOfBits (argRs a)) = i) ∨
      (argSel a = 1 ∧ (strict = false ∨ argZ19 a = 0 ∧ argRs a = 0) ∧
        immForm (regOfBits (argRd a)) (argImm a) = i) := by
  unfold decodeTwoForms
  split <;> rename_i hsel
  · simp [acceptUnused_eq_some, hsel]
  · simp [acceptUnused_eq_some, argSel_eq_one.2 hsel]

theorem decodeJump_eq_some :
    decodeJump strict a form = some i ↔
      (strict = false ∨ argSel a = 0 ∧ argRd a = 0 ∧ argZ19 a = 0 ∧ argRs a = 0) ∧ form (argImm a) = i := by
  simp [decodeJump, acceptUnused_eq_some, and_assoc]

theorem decodeArgs_load_eq_some :
    decodeArgs strict .load a = some i ↔
      (strict = false ∨ argSel a = 0 ∧ argZ19 a = 0) ∧
        .load (regOfBits (argRd a)) (regOfBits (argRs a)) (argImm a) = i := by
  simp [decodeArgs, acceptUnused_eq_some]

theorem decodeArgs_store_eq_some :
    decodeArgs strict .store a = some i ↔
      (strict = false ∨ argSel a = 0 ∧ argZ19 a = 0) ∧
        .store (regOfBits (argRs a)) (regOfBits (argRd a)) (argImm a) = i := by
  simp [decodeArgs, acceptUnused_eq_some]

theorem decodeArgs_halt_eq_some :
    decodeArgs strict .halt a = some i ↔ (strict = false ∨ a = 0) ∧ .halt = i := by
  simp [decodeArgs, acceptUnused_eq_some]

end Readers

theorem mnemonic_of_decodeArgs {strict : Bool} {m : Mnemonic} {a : Args} {i : Instr}
    (h : decodeArgs strict m a = some i) : i.mnemonic = m := by
  cases m with
  | mov | add | sub => obtain ⟨-, -, rfl⟩ | ⟨-, -, rfl⟩ := decodeTwoForms_eq_some.1 h <;> rfl
  | jmp | jz | jnz => obtain ⟨-, rfl⟩ := decodeJump_eq_some.1 h; rfl
  | load => obtain ⟨-, rfl⟩ := decodeArgs_load_eq_some.1 h; rfl
  | store => obtain ⟨-, rfl⟩ := decodeArgs_store_eq_some.1 h; rfl
  | halt => obtain ⟨-, rfl⟩ := decodeArgs_halt_eq_some.1 h; rfl

/-- Settles O7. The operand readers read the packed fields back and answer a form of the mnemonic asked for. -/
theorem defaultLayoutIsLawful : Obligations.DefaultLayoutIsLawful :=
  ⟨decodeArgs_encodeArgs, fun _ _ _ _ => mnemonic_of_decodeArgs⟩

/-- Argument bits whose fields are known are those fields packed. -/
theorem mkArgs_eq {a : Args} {sel : BitVec 1} {rd : BitVec 3} {z19 : BitVec 1} {rs : BitVec 3} {imm : Half}
    (hsel : argSel a = sel) (hrd : argRd a = rd) (hz19 : argZ19 a = z19) (hrs : argRs a = rs) (himm : argImm a = imm) :
    mkArgs sel rd z19 rs imm = a := by
  rw [← hsel, ← hrd, ← hz19, ← hrs, ← himm, mkArgs_fields]

/-- Strictly accepted argument bits are those the encoder lays out: the unused ones are zero, as the encoder's are. -/
theorem encodeArgs_of_decodeArgs {m : Mnemonic} {a : Args} {i : Instr} (h : decodeArgs true m a = some i) :
    encodeArgs i = a := by
  have hreg (b : BitVec 3) : b = bitsOfReg (regOfBits b) := (bitsOfReg_regOfBits b).symm
  cases m with
  | mov | add | sub =>
    obtain ⟨hsel, hunused, rfl⟩ | ⟨hsel, hunused, rfl⟩ := decodeTwoForms_eq_some.1 h
    · obtain ⟨hz, himm⟩ := hunused.resolve_left nofun
      exact mkArgs_eq hsel (hreg _) hz (hreg _) himm
    · obtain ⟨hz, hrs⟩ := hunused.resolve_left nofun
      exact mkArgs_eq hsel (hreg _) hz hrs rfl
  | load =>
    obtain ⟨hunused, rfl⟩ := decodeArgs_load_eq_some.1 h
    obtain ⟨hsel, hz⟩ := hunused.resolve_left nofun
    exact mkArgs_eq hsel (hreg _) hz (hreg _) rfl
  | store =>
    obtain ⟨hunused, rfl⟩ := decodeArgs_store_eq_some.1 h
    obtain ⟨hsel, hz⟩ := hunused.resolve_left nofun
    exact mkArgs_eq hsel (hreg _) hz (hreg _) rfl
  | jmp | jz | jnz =>
    obtain ⟨hunused, rfl⟩ := decodeJump_eq_some.1 h
    obtain ⟨hsel, hrd, hz, hrs⟩ := hunused.resolve_left nofun
    exact mkArgs_eq hsel hrd hz hrs rfl
  | halt =>
    obtain ⟨hunused, rfl⟩ := decodeArgs_halt_eq_some.1 h
    exact (hunused.resolve_left nofun).symm

/-- Settles O2. The opcode is that of the mnemonic answered, and the argument bits are those the encoder lays out. -/
theorem strictlyDecodedWordsAreEncodings : Obligations.StrictlyDecodedWordsAreEncodings := by
  intro w i h
  obtain ⟨m, hop, hargs⟩ := decodeWord_eq_ok.1 h
  calc encode i = opcodeOf i.mnemonic ++ encodeArgs i := rfl
    _ = opcodeField w ++ argsField w := by
      rw [mnemonic_of_decodeArgs hargs, ← opcodeOf_of_mnemonicOf hop, encodeArgs_of_decodeArgs hargs]
    _ = w := opcode_append_args w

/-- Settles O5. An opcode that selected a mnemonic would be one of the nine of the map. -/
theorem undefinedOpcodesAreIllegal : Obligations.UndefinedOpcodesAreIllegal := by
  intro L strict w hop
  have hnone : mnemonicOf (opcodeField w) = none := by
    refine Option.eq_none_iff_forall_ne_some.2 fun m hm => ?_
    rw [mnemonicOf_eq_some.1 hm] at hop
    revert hop
    cases m <;> decide
  rw [decodeWord, hnone]

theorem toNat_opcodeField (w : Word) : (opcodeField w).toNat = w.toNat / 2 ^ 24 := by
  rw [opcodeField, BitVec.extractLsb'_toNat, Nat.shiftRight_eq_div_pow]
  exact Nat.mod_eq_of_lt (by omega)

/-- Settles O6. The opcode byte is that of the mnemonic the layout was asked for, which is the instruction's. -/
theorem opcodeByteFixesTheInstruction : Obligations.OpcodeByteFixesTheInstruction := by
  intro L strict w i hlawful h
  obtain ⟨m, hop, hargs⟩ := decodeWord_eq_ok.1 h
  rw [← toNat_opcodeField, opcodeOf_of_mnemonicOf hop, ← hlawful m hargs]
  cases i <;> rfl

/-- Settles O8, by running the decoder. -/
theorem exampleWordsDecode : Obligations.ExampleWordsDecode := by
  unfold Obligations.ExampleWordsDecode
  decide

end Sys2Proof

/-! The masks of the opcode table and of the unused bits, read field by field (30_encoding.md R84, R89;
opcode_table.json). -/

namespace Sys2Proof

/-- A mask on argument bits acts on each field. -/
theorem and_mkArgs (a : Args) (sel : BitVec 1) (rd : BitVec 3) (z19 : BitVec 1) (rs : BitVec 3) (imm : Half) :
    a &&& mkArgs sel rd z19 rs imm =
      mkArgs (argSel a &&& sel) (argRd a &&& rd) (argZ19 a &&& z19) (argRs a &&& rs) (argImm a &&& imm) := by
  refine (mkArgs_eq ?_ ?_ ?_ ?_ ?_).symm
  · rw [argSel_and, argSel_mkArgs]
  · rw [argRd_and, argRd_mkArgs]
  · rw [argZ19_and, argZ19_mkArgs]
  · rw [argRs_and, argRs_mkArgs]
  · rw [argImm_and, argImm_mkArgs]

theorem mkArgs_inj {sel sel' z19 z19' : BitVec 1} {rd rd' rs rs' : BitVec 3} {imm imm' : Half} :
    mkArgs sel rd z19 rs imm = mkArgs sel' rd' z19' rs' imm' ↔
      sel = sel' ∧ rd = rd' ∧ z19 = z19' ∧ rs = rs' ∧ imm = imm' := by
  constructor
  · intro h
    refine ⟨?_, ?_, ?_, ?_, ?_⟩
    · simpa only [argSel_mkArgs] using congrArg argSel h
    · simpa only [argRd_mkArgs] using congrArg argRd h
    · simpa only [argZ19_mkArgs] using congrArg argZ19 h
    · simpa only [argRs_mkArgs] using congrArg argRs h
    · simpa only [argImm_mkArgs] using congrArg argImm h
  · rintro ⟨rfl, rfl, rfl, rfl, rfl⟩
    rfl

theorem opcode_append_inj {op op' : BitVec 8} {a a' : Args} : op ++ a = op' ++ a' ↔ op = op' ∧ a = a' := by
  constructor
  · intro h
    constructor
    · simpa only [opcodeField_append] using congrArg opcodeField h
    · simpa only [argsField_append] using congrArg argsField h
  · rintro ⟨rfl, rfl⟩
    rfl

/-- The row that asks of a word the opcode of `m`, and of its argument bits `pattern` on the bits of `mask`. -/
def rowOf (m : Mnemonic) (mask pattern : Args) : OpcodeRow := ⟨BitVec.allOnes 8 ++ mask, opcodeOf m ++ pattern⟩

/-- The rows of a mnemonic, their masks written as fields: one row for each form (30_encoding.md R84). -/
def rowsOf (m : Mnemonic) : List OpcodeRow :=
  match m with
  | .mov | .add | .sub =>
    [rowOf m (mkArgs (.allOnes 1) 0 (.allOnes 1) 0 (.allOnes 16)) (mkArgs 0 0 0 0 0),
     rowOf m (mkArgs (.allOnes 1) 0 (.allOnes 1) (.allOnes 3) 0) (mkArgs 1 0 0 0 0)]
  | .load | .store => [rowOf m (mkArgs (.allOnes 1) 0 (.allOnes 1) 0 0) (mkArgs 0 0 0 0 0)]
  | .jmp | .jz | .jnz =>
    [rowOf m (mkArgs (.allOnes 1) (.allOnes 3) (.allOnes 1) (.allOnes 3) 0) (mkArgs 0 0 0 0 0)]
  | .halt => [rowOf m (.allOnes 24) 0]

/-- The nine instructions, in the order of the opcode table. -/
def mnemonics : List Mnemonic := [.mov, .add, .sub, .load, .store, .jmp, .jz, .jnz, .halt]

theorem mem_mnemonics (m : Mnemonic) : m ∈ mnemonics := by
  cases m <;> decide

theorem opcodeRows_eq_flatMap : opcodeRows = mnemonics.flatMap rowsOf := by
  decide

theorem matchesWord_rowOf (m : Mnemonic) (mask pattern : Args) (w : Word) :
    (rowOf m mask pattern).matchesWord w = true ↔ opcodeField w = opcodeOf m ∧ argsField w &&& mask = pattern := by
  have hw : w &&& (BitVec.allOnes 8 ++ mask) = opcodeField w ++ (argsField w &&& mask) := by
    rw [← opcode_append_args (w &&& _), opcodeField_and, argsField_and, opcodeField_append, argsField_append,
      BitVec.and_allOnes]
  rw [OpcodeRow.matchesWord, beq_iff_eq, rowOf, hw, opcode_append_inj]

/-- Some form of a mnemonic leaves only zero bits of these argument bits unused (30_encoding.md R84, R89). -/
def unusedZero (a : Args) : Mnemonic → Prop
  | .mov | .add | .sub =>
    (argSel a = 0 ∧ argZ19 a = 0 ∧ argImm a = 0) ∨ (argSel a = 1 ∧ argZ19 a = 0 ∧ argRs a = 0)
  | .load | .store => argSel a = 0 ∧ argZ19 a = 0
  | .jmp | .jz | .jnz => argSel a = 0 ∧ argRd a = 0 ∧ argZ19 a = 0 ∧ argRs a = 0
  | .halt => a = 0

theorem decodeArgs_true_iff (m : Mnemonic) (a : Args) : (∃ i, decodeArgs true m a = some i) ↔ unusedZero a m := by
  cases m with
  | mov | add | sub => simp [decodeArgs, unusedZero, decodeTwoForms_eq_some, exists_or]
  | jmp | jz | jnz => simp [decodeArgs, unusedZero, decodeJump_eq_some]
  | load => simp [unusedZero, decodeArgs_load_eq_some]
  | store => simp [unusedZero, decodeArgs_store_eq_some]
  | halt => simp [unusedZero, decodeArgs_halt_eq_some]

theorem matchesWord_rowsOf (m : Mnemonic) (w : Word) :
    (∃ row ∈ rowsOf m, row.matchesWord w = true) ↔ opcodeField w = opcodeOf m ∧ unusedZero (argsField w) m := by
  cases m <;>
    simp [rowsOf, unusedZero, matchesWord_rowOf, and_mkArgs, mkArgs_inj, and_or_left, -BitVec.reduceAllOnes]

/-- The default decoder accepts a word with an opcode of the map and argument bits that its reader accepts. -/
theorem decodeWord_default_iff (strict : Bool) (w : Word) :
    (∃ i, decodeWord .default strict w = .ok i) ↔
      ∃ m, opcodeField w = opcodeOf m ∧ ∃ i, decodeArgs strict m (argsField w) = some i := by
  simp only [decodeWord_eq_ok, mnemonicOf_eq_some, ← exists_and_left]
  exact exists_comm

/-- Settles O3. The rows of each mnemonic ask for its opcode and for zero unused bits, as its operand reader does. -/
theorem strictDecoderAcceptsTheTableRows : Obligations.StrictDecoderAcceptsTheTableRows := by
  intro w
  calc (∃ i, decodeWord .default true w = .ok i)
      ↔ ∃ m, opcodeField w = opcodeOf m ∧ ∃ i, decodeArgs true m (argsField w) = some i :=
        decodeWord_default_iff true w
    _ ↔ ∃ m, ∃ row ∈ rowsOf m, row.matchesWord w = true := by
        simp only [decodeArgs_true_iff, matchesWord_rowsOf]
    _ ↔ ∃ row ∈ opcodeRows, row.matchesWord w = true := by
        rw [opcodeRows_eq_flatMap]
        simp only [List.mem_flatMap, mem_mnemonics, true_and, ← exists_and_right]
        exact exists_comm

/-- The argument bits that are used, as fields, by the form that the mnemonic and bit 23 select (30_encoding.md R84). -/
def usedArgs (a : Args) : Mnemonic → Args
  | .mov | .add | .sub =>
    if argSel a = 0 then mkArgs (.allOnes 1) (.allOnes 3) 0 (.allOnes 3) 0
    else mkArgs (.allOnes 1) (.allOnes 3) 0 0 (.allOnes 16)
  | .load | .store => mkArgs 0 (.allOnes 3) 0 (.allOnes 3) (.allOnes 16)
  | .jmp | .jz | .jnz => mkArgs 0 0 0 0 (.allOnes 16)
  | .halt => 0

theorem argsField_usedBits {w : Word} {m : Mnemonic} (h : mnemonicOf (opcodeField w) = some m) :
    argsField (usedBits w) = usedArgs (argsField w) m := by
  have hsel : (argSel (argsField w) = 0) = (BitVec.getLsbD w 23 = false) := propext (argSel_eq_zero w)
  unfold usedBits
  rw [h]
  cases m with
  | mov | add | sub =>
    simp only [usedArgs, hsel]
    cases BitVec.getLsbD w 23 <;> rfl
  | load | store | jmp | jz | jnz | halt => simp only [usedArgs]; rfl

/-- With the unused bits cleared the test on them passes, and the fields read are the same. -/
theorem decodeArgs_and_usedArgs (m : Mnemonic) (a : Args) :
    decodeArgs true m (a &&& usedArgs a m) = decodeArgs false m a := by
  cases m with
  | mov | add | sub =>
    obtain hsel | hsel : argSel a = 0 ∨ argSel a = 1 := (em _).imp_right argSel_eq_one.2
    all_goals
      simp [decodeArgs, usedArgs, hsel, decodeTwoForms, acceptUnused, and_mkArgs, argSel_mkArgs, argRd_mkArgs,
        argZ19_mkArgs, argRs_mkArgs, argImm_mkArgs, -BitVec.reduceAllOnes]
  | load | store | jmp | jz | jnz =>
    simp [decodeArgs, usedArgs, decodeJump, acceptUnused, and_mkArgs, argSel_mkArgs, argRd_mkArgs,
        argZ19_mkArgs, argRs_mkArgs, argImm_mkArgs, -BitVec.reduceAllOnes]
  | halt => simp [decodeArgs, usedArgs, acceptUnused]

theorem decodeArgs_false_total (m : Mnemonic) (a : Args) : ∃ i, decodeArgs false m a = some i := by
  cases m with
  | mov | add | sub => simp [decodeArgs, decodeTwoForms, acceptUnused, ← apply_ite]
  | jmp | jz | jnz => exact ⟨_, rfl⟩
  | load | store | halt => exact ⟨_, rfl⟩

/-- Settles O4. Clearing the unused bits keeps the opcode and the fields read, and makes the test on the others pass;
without the test every word with a defined opcode is read, and an encoding reads the same either way. -/
theorem laxDecoderIgnoresUnusedBits : Obligations.LaxDecoderIgnoresUnusedBits := by
  intro w
  refine ⟨?masked, ?defined, ?same⟩
  case masked =>
    cases hm : mnemonicOf (opcodeField w) with
    | none => simp only [decodeWord, opcodeField_and_usedBits, hm]
    | some m =>
      obtain ⟨i, hi⟩ := decodeArgs_false_total m (argsField w)
      have hmasked : decodeArgs true m (argsField (w &&& usedBits w)) = some i := by
        rw [argsField_and, argsField_usedBits hm, decodeArgs_and_usedArgs, hi]
      rw [decodeWord_eq_ok.2 ⟨m, hm, hi⟩, decodeWord_eq_ok.2 ⟨m, (opcodeField_and_usedBits w).symm ▸ hm, hmasked⟩]
  case defined =>
    calc (∃ i, decodeWord .default false w = .ok i)
        ↔ ∃ m, opcodeField w = opcodeOf m ∧ ∃ i, decodeArgs false m (argsField w) = some i :=
          decodeWord_default_iff false w
      _ ↔ opcodeField w ∈ mnemonics.map opcodeOf := by
          simp only [decodeArgs_false_total, and_true, List.mem_map, mem_mnemonics, true_and,
            eq_comm (b := opcodeField w)]
  case same =>
    intro i hi
    rw [← strictlyDecodedWordsAreEncodings w i hi]
    exact decodeWord_encode false i

end Sys2Proof

/-! What every instruction keeps when it completes: SP and the parameters, the canonical form of memory and the
alignment of PC; and so what every step keeps (10_state.md R25, R27). -/

namespace Sys2Proof.Machine

section Jump

variable (s : State) (taken : Bool) (offset16 : Half)

@[simp] theorem State.jumpIf_sp : (s.jumpIf taken offset16).sp = s.sp := by rw [State.jumpIf_eq, State.setPc_sp]
@[simp] theorem State.jumpIf_flags : (s.jumpIf taken offset16).flags = s.flags := by
  rw [State.jumpIf_eq, State.setPc_flags]
@[simp] theorem State.jumpIf_run : (s.jumpIf taken offset16).run = s.run := by rw [State.jumpIf_eq, State.setPc_run]
@[simp] theorem State.jumpIf_mem : (s.jumpIf taken offset16).mem = s.mem := by rw [State.jumpIf_eq, State.setPc_mem]
@[simp] theorem State.jumpIf_cfg : (s.jumpIf taken offset16).cfg = s.cfg := by rw [State.jumpIf_eq, State.setPc_cfg]

end Jump

theorem sp_completion (s : State) (i : Instr) : (completion s i).sp = s.sp := by
  cases i with
  | jmp | jz | jnz => exact s.jumpIf_sp _ _
  | _ => rfl

theorem cfg_completion (s : State) (i : Instr) : (completion s i).cfg = s.cfg := by
  cases i with
  | jmp | jz | jnz => exact s.jumpIf_cfg _ _
  | _ => rfl

theorem wf_completion {s : State} (h : Memory.wf s.mem = true) (i : Instr) : Memory.wf (completion s i).mem = true := by
  cases i with
  | store => exact State.wf_putWord h _ _
  | jmp | jz | jnz => exact (congrArg Memory.wf (s.jumpIf_mem _ _)).trans h
  | _ => exact h

theorem toNat_add_four_mod {a : Word} (h : a.toNat % 4 = 0) : (a + 4).toNat % 4 = 0 := by
  bv_omega

/-- A jump's displacement is shifted left by two, so the target is a multiple of 4 when `pc` is (42_jumps.md R140). -/
theorem State.toNat_jumpTarget_mod {s : State} (h : s.pc.toNat % 4 = 0) (offset16 : Half) :
    (s.jumpTarget offset16).toNat % 4 = 0 := by
  have hpc := toNat_add_four_mod h
  simp only [State.jumpTarget, BitVec.toNat_add (s.pc + 4), BitVec.toNat_shiftLeft, Nat.shiftLeft_eq]
  omega

theorem State.pcAligned_jumpIf {s : State} (h : s.pcAligned) (taken : Bool) (offset16 : Half) :
    (s.jumpIf taken offset16).pcAligned := by
  rw [State.pcAligned, State.pc_jumpIf]
  cases taken with
  | true => exact State.toNat_jumpTarget_mod h offset16
  | false => exact toNat_add_four_mod h

theorem pcAligned_completion {s : State} (h : s.pcAligned) (i : Instr) : (completion s i).pcAligned := by
  cases i with
  | jmp | jz | jnz => exact State.pcAligned_jumpIf h _ _
  | halt => exact h
  | _ => exact toNat_add_four_mod h

theorem inv_enterFault {s : State} (h : s.Inv) (c : FaultCause) : (s.enterFault c).Inv :=
  ⟨h.mem_wf, h.pc_aligned, h.sp_zero⟩

theorem inv_completion {s : State} (h : s.Inv) (i : Instr) : (completion s i).Inv :=
  ⟨wf_completion h.mem_wf i, pcAligned_completion h.pc_aligned i, (sp_completion s i).trans h.sp_zero⟩

/-- A step takes a fault or completes the instruction that it decoded. -/
theorem stepUnder_next_cases {L : ArgsLayout} {s t : State} (h : stepUnder L s = .next t) :
    (∃ c, t = s.enterFault c) ∨
    ∃ i, decodeWord L s.cfg.strictReserved (s.wordAt s.pc) = .ok i ∧ t = completion s i := by
  obtain ⟨-, -, ⟨-, hfetch⟩ | ⟨-, e, -, hillegal⟩ | ⟨-, i, hdecode, hexec⟩⟩ := stepUnder_next h
  · exact .inl ⟨_, hfetch⟩
  · exact .inl ⟨_, hillegal⟩
  · exact (exec_next_cases hexec).imp_right fun hcomp => ⟨i, hdecode, hcomp⟩

theorem inv_stepUnder {L : ArgsLayout} {s t : State} (h : s.Inv) (hstep : stepUnder L s = .next t) : t.Inv := by
  obtain ⟨c, rfl⟩ | ⟨i, -, rfl⟩ := stepUnder_next_cases hstep
  · exact inv_enterFault h c
  · exact inv_completion h i

/-- Settles O38. A fault changes only the run state, and a completed instruction keeps each part of the invariant. -/
theorem stepKeepsTheInvariant : Obligations.StepKeepsTheInvariant := fun _ _ _ => inv_stepUnder

/-- Settles O37. A fault changes only the run state, and no instruction that completes writes SP or the parameters. -/
theorem noStepChangesSpOrParameters : Obligations.NoStepChangesSpOrParameters := by
  intro L s t hstep
  obtain ⟨c, rfl⟩ | ⟨i, -, rfl⟩ := stepUnder_next_cases hstep
  · exact ⟨rfl, rfl⟩
  · exact ⟨sp_completion s i, cfg_completion s i⟩

/-- Settles O39. Reset and every launch state have the empty or the given memory, and PC and SP of 0. -/
theorem resetMeetsTheInvariant : Obligations.ResetMeetsTheInvariant := by
  refine ⟨⟨rfl, rfl, rfl⟩, ?_⟩
  rintro s ⟨s₀, hwf, rfl⟩
  exact ⟨hwf, rfl, rfl⟩

end Sys2Proof.Machine

/-! The step by its phases: which state each phase answers, and that a running machine with an aligned PC always has a
next state (10_state.md R37, 60_exceptions.md R161 to R166). -/

namespace Sys2Proof.Machine

theorem aligned_iff (a : Word) : aligned a = true ↔ a.toNat % 4 = 0 := by
  rw [aligned, beq_iff_eq, BitVec.toNat_eq, BitVec.extractLsb'_toNat]
  rfl

theorem aligned_eq_false (a : Word) : aligned a = false ↔ a.toNat % 4 ≠ 0 := by
  rw [← Bool.not_eq_true, aligned_iff]

section Phases

variable {L : ArgsLayout} {s : State}

theorem stepUnder_of_halted (h : s.run = .halted) : stepUnder L s = .fault .halted := by
  rw [stepUnder, h]

theorem stepUnder_of_faulted {c : FaultCause} (h : s.run = .faulted c) : stepUnder L s = .fault (.faulted c) := by
  rw [stepUnder, h]

theorem stepUnder_of_misaligned (hrun : s.run = .running) (hpc : s.pc.toNat % 4 ≠ 0) :
    stepUnder L s = .refused (.misalignedPc s.pc) := by
  simp [stepUnder, hrun, (aligned_eq_false s.pc).2 hpc]

theorem stepUnder_of_aligned (hrun : s.run = .running) (hpc : s.pc.toNat % 4 = 0) : stepUnder L s = runCycle L s := by
  simp [stepUnder, hrun, (aligned_iff s.pc).2 hpc]

theorem runCycle_of_unbacked (hb : s.backed s.pc = false) :
    runCycle L s = .next (s.enterFault (.busError s.pc .fetch)) := by
  simp [runCycle, State.fetch, hb]

theorem runCycle_of_backed (hb : s.backed s.pc = true) : runCycle L s = decodeAndExecute L (s.wordAt s.pc) s := by
  simp [runCycle, State.fetch, hb]

theorem decodeAndExecute_of_error {w : Word} {e : DecodeError} (h : decodeWord L s.cfg.strictReserved w = .error e) :
    decodeAndExecute L w s = .next (s.enterFault (.illegalInstruction w s.pc)) := by
  rw [decodeAndExecute, h]

theorem decodeAndExecute_of_ok {w : Word} {i : Instr} (h : decodeWord L s.cfg.strictReserved w = .ok i) :
    decodeAndExecute L w s = exec i s := by
  rw [decodeAndExecute, h]

theorem stepUnder_eq_exec {i : Instr} (hrun : s.run = .running) (hpc : s.pc.toNat % 4 = 0) (hb : s.backed s.pc = true)
    (h : decodeWord L s.cfg.strictReserved (s.wordAt s.pc) = .ok i) : stepUnder L s = exec i s := by
  rw [stepUnder_of_aligned hrun hpc, runCycle_of_backed hb, decodeAndExecute_of_ok h]

theorem stepUnder_total (hrun : s.run = .running) (hpc : s.pc.toNat % 4 = 0) : ∃ t, stepUnder L s = .next t := by
  rw [stepUnder_of_aligned hrun hpc]
  cases hb : s.backed s.pc with
  | false => exact ⟨_, runCycle_of_unbacked hb⟩
  | true =>
    rw [runCycle_of_backed hb]
    cases h : decodeWord L s.cfg.strictReserved (s.wordAt s.pc) with
    | error e => exact ⟨_, decodeAndExecute_of_error h⟩
    | ok i => exact ⟨_, (decodeAndExecute_of_ok h).trans (exec_eq i s)⟩

end Phases

/-- Settles O9. Each phase of the step passes on to the next, and the last is `exec`. -/
theorem stepRunsTheDecodedInstruction : Obligations.StepRunsTheDecodedInstruction := by
  intro L s i hrun hpc hb hdecode
  have hstep : stepUnder L s = exec i s := stepUnder_eq_exec hrun hpc hb hdecode
  refine ⟨hstep, ?_⟩
  rintro rfl
  exact hstep

/-- Settles O10. The word laid out decodes to its instruction, which the step then executes. -/
theorem everyLayoutRunsWhatItEncodes : Obligations.EveryLayoutRunsWhatItEncodes := by
  intro L s i hback hrun hpc hb hword
  exact stepUnder_eq_exec hrun hpc hb (hword ▸ decodeWord_encodeWith hback)

/-- Settles O11. The fetch succeeds, and the decode phase takes the fault. -/
theorem illegalWordTakesTheFault : Obligations.IllegalWordTakesTheFault := by
  intro L s e hrun hpc hb hdecode
  rw [stepUnder_of_aligned hrun hpc, runCycle_of_backed hb, decodeAndExecute_of_error hdecode]
  rfl

/-- Settles O12. The fetch phase takes the fault. -/
theorem unbackedFetchTakesBusError : Obligations.UnbackedFetchTakesBusError := by
  intro L s hrun hpc hb
  rw [stepUnder_of_aligned hrun hpc, runCycle_of_unbacked hb]
  rfl

/-- Settles O14. -/
theorem faultedStateHasNoStep : Obligations.FaultedStateHasNoStep := fun _ _ _ => stepUnder_of_faulted

/-- Settles O15. -/
theorem misalignedPcIsRefused : Obligations.MisalignedPcIsRefused := fun _ _ => stepUnder_of_misaligned

/-- Settles O40. By induction on the steps, as each keeps the invariant; and the invariant has PC aligned, where a
running machine has a next state. -/
theorem reachableStatesMeetTheInvariant : Obligations.ReachableStatesMeetTheInvariant := by
  intro s t hlaunch hreach
  have hinv : t.Inv := by
    induction hreach with
    | refl => exact resetMeetsTheInvariant.2 s hlaunch
    | tail _ hstep ih => exact inv_stepUnder ih hstep
  refine ⟨hinv, fun r hrefused => ?_⟩
  cases hrun : t.run with
  | running =>
    obtain ⟨u, hu⟩ := stepUnder_total (L := .default) hrun hinv.pc_aligned
    exact nomatch hu.symm.trans hrefused
  | halted => exact nomatch (stepUnder_of_halted hrun).symm.trans hrefused
  | faulted c => exact nomatch (stepUnder_of_faulted hrun).symm.trans hrefused

end Sys2Proof.Machine

/-! The host's loop: it leaves a machine that does not run as it is, and so a longer loop ends where a shorter one has
halted (70_reset_and_hazards.md R184; 43_halt.md R151). -/

namespace Sys2Proof.Machine

theorem runFor_of_not_running {L : ArgsLayout} {s : State} (h : s.run ≠ .running) (n : Nat) :
    runFor L n s = .next s := by
  cases n with
  | zero => rfl
  | succ n => rw [runFor, if_neg h]

/-- A loop that ends in a next state has stopped already, or has made its first turn. -/
theorem runFor_succ_next {L : ArgsLayout} {n : Nat} {s t : State} (h : runFor L (n + 1) s = .next t) :
    (s.run ≠ .running ∧ s = t) ∨ (s.run = .running ∧ ∃ u, stepUnder L s = .next u ∧ runFor L n u = .next t) := by
  rw [runFor] at h
  split at h
  next hrun =>
    split at h
    next u hu => exact .inr ⟨hrun, u, hu, h⟩
    · cases h
    · cases h
  next hrun => exact .inl ⟨hrun, by injection h⟩

theorem runFor_succ_of_step {L : ArgsLayout} {s u : State} (hrun : s.run = .running) (hstep : stepUnder L s = .next u)
    (n : Nat) : runFor L (n + 1) s = runFor L n u := by
  rw [runFor, if_pos hrun, hstep]

/-- Settles O44, by induction on the turns made: after a turn the rest of the loop does the same. -/
theorem haltedRunsStayHalted : Obligations.HaltedRunsStayHalted := by
  intro L n k s t h ht
  have hstop : t.run ≠ .running := by rw [ht]; exact nofun
  induction n generalizing s with
  | zero =>
    injection h with h
    subst h
    exact runFor_of_not_running hstop _
  | succ n ih =>
    obtain ⟨-, rfl⟩ | ⟨hrun, u, hu, hrest⟩ := runFor_succ_next h
    · exact runFor_of_not_running hstop _
    · rw [Nat.add_right_comm, runFor_succ_of_step hrun hu, ih u hrest]

/-- Settles O13. HALT writes the run state alone, on which the step and the loop stop. -/
theorem haltedStateIsFinal : Obligations.HaltedStateIsFinal := by
  refine ⟨fun s t h => ?halt, fun s h => ?halted, fun s => Iff.rfl⟩
  case halt =>
    cases h
    exact ⟨rfl, fun _ => rfl, rfl, rfl, rfl⟩
  case halted =>
    have hstep : step s = .fault .halted := stepUnder_of_halted h
    refine ⟨hstep, fun t ht => ?_, runFor_of_not_running ?_⟩
    · exact nomatch hstep.symm.trans ht
    · rw [h]; exact nofun

/-- Settles O42. -/
theorem hostResetInstallsTheResetState : Obligations.HostResetInstallsTheResetState :=
  ⟨fun s => ⟨s.reg_hostReset, rfl, rfl, flagsOccupyTheLowFourBits.2, rfl, rfl, fun _ => rfl⟩, rfl⟩

end Sys2Proof.Machine

/-! Faults: when the access of an instruction raises one, and what a step that ends FAULTED or HALTED did
(60_exceptions.md R161 to R166, 43_halt.md R150). -/

namespace Sys2Proof.Machine

theorem exec_of_accessFault {i : Instr} {s : State} {c : FaultCause} (h : accessFault s i = some c) :
    exec i s = .next (s.enterFault c) := by
  rw [exec_eq, h]
  rfl

theorem exec_of_no_accessFault {i : Instr} {s : State} (h : accessFault s i = none) :
    exec i s = .next (completion s i) := by
  rw [exec_eq, h]
  rfl

/-- What `exec` answers, with the fault of the access that decides it. -/
theorem exec_next_access_cases {i : Instr} {s t : State} (h : exec i s = .next t) :
    (∃ c, accessFault s i = some c ∧ t = s.enterFault c) ∨ (accessFault s i = none ∧ t = completion s i) := by
  cases hfault : accessFault s i with
  | none =>
    rw [exec_of_no_accessFault hfault] at h
    injection h with h
    exact .inr ⟨rfl, h.symm⟩
  | some c =>
    rw [exec_of_accessFault hfault] at h
    injection h with h
    exact .inl ⟨c, rfl, h.symm⟩

/-- Only HALT writes the run state when it completes. -/
theorem run_completion (s : State) (i : Instr) : (completion s i).run = if i = .halt then .halted else s.run := by
  cases i with
  | jmp | jz | jnz => exact s.jumpIf_run _ _
  | _ => rfl

theorem run_completion_of_ne_halt (s : State) {i : Instr} (h : i ≠ .halt) : (completion s i).run = s.run := by
  rw [run_completion, if_neg h]

theorem run_completion_ne_faulted {s : State} (hrun : s.run = .running) (i : Instr) (c : FaultCause) :
    (completion s i).run ≠ .faulted c := by
  rw [run_completion, hrun]
  split <;> exact nofun

/-- An execution that ends FAULTED from a running state raised that fault in its access. -/
theorem accessFault_of_exec {i : Instr} {s t : State} {c : FaultCause} (hrun : s.run = .running)
    (h : exec i s = .next t) (ht : t.run = .faulted c) : accessFault s i = some c := by
  obtain ⟨c', hfault, rfl⟩ | ⟨-, rfl⟩ := exec_next_access_cases h
  · injection ht with hc
    rw [hfault, hc]
  · exact absurd ht (run_completion_ne_faulted hrun i c)

/-- An access fault is that of a LOAD or of a STORE at its effective address. -/
theorem accessFault_cases {s : State} {i : Instr} {c : FaultCause} (h : accessFault s i = some c) :
    ∃ ea d,
      ((∃ rd rs imm16, i = .load rd rs imm16 ∧ d = .load ∧ ea = s.effectiveAddress rs imm16) ∨
       (∃ rs rd imm16, i = .store rs rd imm16 ∧ d = .store ∧ ea = s.effectiveAddress rd imm16)) ∧
      s.dataFault ea d = some c := by
  cases i with
  | load rd rs imm16 => exact ⟨_, _, .inl ⟨rd, rs, imm16, rfl, rfl, rfl⟩, h⟩
  | store rs rd imm16 => exact ⟨_, _, .inr ⟨rs, rd, imm16, rfl, rfl, rfl⟩, h⟩
  | _ => exact nomatch h

/-- Settles O16. A completed instruction does not set FAULTED, so the step took a fault, and with it this one. -/
theorem faultsArePrecise : Obligations.FaultsArePrecise := by
  intro L s t c hstep ht
  have hrun := (stepUnder_next hstep).1
  obtain ⟨c', rfl⟩ | ⟨i, -, rfl⟩ := stepUnder_next_cases hstep
  · injection ht with hc
    rw [← hc]
    rfl
  · exact absurd ht (run_completion_ne_faulted hrun i c)

/-- Settles O17. The phases of the step raise the first two causes, and the access of the instruction the others. -/
theorem faultCausesAreComplete : Obligations.FaultCausesAreComplete := by
  intro L s t c hstep ht
  obtain ⟨hrun, -, ⟨hb, rfl⟩ | ⟨hb, e, he, rfl⟩ | ⟨hb, i, hi, hexec⟩⟩ := stepUnder_next hstep
  · injection ht with hc
    exact .inl ⟨hb, hc.symm⟩
  · injection ht with hc
    exact .inr (.inl ⟨hb, ⟨e, he⟩, hc.symm⟩)
  · obtain ⟨ea, d, hform, hfault⟩ := accessFault_cases (accessFault_of_exec hrun hexec ht)
    rw [State.dataFault_eq_some, aligned_iff, aligned_eq_false] at hfault
    exact .inr (.inr ⟨hb, i, ea, d, hi, hform, hfault⟩)

/-- Settles O18. Every cause that is a BusError has an unbacked word, and a full MEM_MAP backs every word. -/
theorem fullMemoryMapNeverRaisesBusError : Obligations.FullMemoryMapNeverRaisesBusError := by
  intro L s t a k hfull hstep ht
  have hbacked (x : Word) : s.backed x = true := by simp only [State.backed, hfull, Bool.and_self]
  obtain ⟨hb, -⟩ | ⟨-, -, hc⟩ | ⟨-, i, ea, d, -, -, ⟨-, -, hc⟩ | ⟨-, hb, -⟩⟩ :=
    faultCausesAreComplete L s t _ hstep ht
  · exact nomatch (hbacked _).symm.trans hb
  · exact nomatch hc
  · exact nomatch hc
  · exact nomatch (hbacked _).symm.trans hb

/-- Settles O19. Taking a fault does not set HALTED, and of the instructions only HALT does. -/
theorem onlyHaltHalts : Obligations.OnlyHaltHalts := by
  intro L s t hstep ht
  have hrun := (stepUnder_next hstep).1
  obtain ⟨c, rfl⟩ | ⟨i, hi, rfl⟩ := stepUnder_next_cases hstep
  · exact nomatch ht
  · by_cases hhalt : i = .halt
    · subst hhalt
      exact ⟨hi, rfl⟩
    · rw [run_completion_of_ne_halt s hhalt, hrun] at ht
      exact nomatch ht

/-- Settles O20. `exec` is always a next state, and takes the fault of the access where there is one. -/
theorem everyInstructionAnswersANextState : Obligations.EveryInstructionAnswersANextState := by
  refine fun i s => ⟨⟨_, exec_eq i s⟩, ?_⟩
  rintro ra rb imm16 d c (⟨rfl, rfl⟩ | ⟨rfl, rfl⟩) hfault <;> exact exec_of_accessFault hfault

end Sys2Proof.Machine

/-! The flag functions as arithmetic (40_move_arith.md R117 to R120): Z and N of a value, carry and borrow of unsigned
numbers, overflow of signed ones. -/

namespace Sys2Proof.Machine

theorem flagZ_iff (r : Word) : flagZ r = true ↔ r = 0 := beq_iff_eq

theorem flagN_iff (r : Word) : flagN r = true ↔ 2 ^ 31 ≤ r.toNat := by
  have hmsb : flagN r = r.msb := (BitVec.msb_eq_getLsbD_last r).symm
  rw [hmsb, BitVec.msb_eq_decide, decide_eq_true_iff]

/-- Bit 32 of a 64-bit value is its quotient by 2^32 being odd. -/
theorem getLsbD_32_iff (x : BitVec 64) : BitVec.getLsbD x 32 = true ↔ x.toNat / 2 ^ 32 % 2 = 1 := by
  rw [← BitVec.testBit_toNat, Nat.testBit_eq_decide_div_mod_eq, decide_eq_true_iff]

theorem carryOfAdd_iff (old src : Word) : carryOfAdd old src = true ↔ 2 ^ 32 ≤ old.toNat + src.toNat := by
  rw [carryOfAdd, getLsbD_32_iff, BitVec.toNat_add, BitVec.toNat_setWidth_of_le (by decide),
    BitVec.toNat_setWidth_of_le (by decide)]
  omega

theorem borrowOfSub_iff (old src : Word) : borrowOfSub old src = true ↔ old.toNat < src.toNat :=
  decide_eq_true_iff

/-- The borrow is bit 32 of the 64-bit difference, whose high half is all ones when the minuend is smaller. -/
theorem borrowOfSub_eq_getLsbD (old src : Word) :
    borrowOfSub old src = BitVec.getLsbD (BitVec.zeroExtend 64 old - BitVec.zeroExtend 64 src) 32 := by
  rw [Bool.eq_iff_iff, borrowOfSub_iff, getLsbD_32_iff, BitVec.toNat_sub, BitVec.toNat_setWidth_of_le (by decide),
    BitVec.toNat_setWidth_of_le (by decide)]
  omega

theorem overflowOfAdd_iff (old src : Word) :
    overflowOfAdd old src (old + src) = true ↔
      old.toInt + src.toInt < -2 ^ 31 ∨ 2 ^ 31 ≤ old.toInt + src.toInt := by
  have hsadd : overflowOfAdd old src (old + src) = old.saddOverflow src := by
    rw [BitVec.saddOverflow_eq, BitVec.msb_eq_getLsbD_last, BitVec.msb_eq_getLsbD_last, BitVec.msb_eq_getLsbD_last]
    rfl
  rw [hsadd, BitVec.saddOverflow, Bool.or_eq_true, decide_eq_true_iff, decide_eq_true_iff, or_comm]

theorem overflowOfSub_iff (old src : Word) :
    overflowOfSub old src (old - src) = true ↔
      old.toInt - src.toInt < -2 ^ 31 ∨ 2 ^ 31 ≤ old.toInt - src.toInt := by
  have hssub : overflowOfSub old src (old - src) = old.ssubOverflow src := by
    rw [BitVec.ssubOverflow_eq, BitVec.msb_eq_getLsbD_last, BitVec.msb_eq_getLsbD_last, BitVec.msb_eq_getLsbD_last]
    simp only [overflowOfSub]
    cases old.getLsbD 31 <;> cases src.getLsbD 31 <;> simp
  rw [hssub, BitVec.ssubOverflow, Bool.or_eq_true, decide_eq_true_iff, decide_eq_true_iff, or_comm]

end Sys2Proof.Machine

/-! MOV, ADD and SUB in both forms, and LOAD and STORE: the next state, from the operand and the effective address
(files 40 and 41). -/

namespace Sys2Proof.Machine

section TwoForms

variable {s : State} {rd rs : Reg} {imm16 : Half} {i : Instr} {src : Word}

theorem exec_mov (h : (i = .movR rd rs ∧ src = s.reg rs) ∨ (i = .movI rd imm16 ∧ src = BitVec.signExtend 32 imm16)) :
    exec i s = .next (s.moveInto rd src) := by
  obtain ⟨rfl, rfl⟩ | ⟨rfl, rfl⟩ := h <;> rfl

theorem exec_add (h : (i = .addR rd rs ∧ src = s.reg rs) ∨ (i = .addI rd imm16 ∧ src = BitVec.signExtend 32 imm16)) :
    exec i s = .next (s.addInto rd src) := by
  obtain ⟨rfl, rfl⟩ | ⟨rfl, rfl⟩ := h <;> rfl

theorem exec_sub (h : (i = .subR rd rs ∧ src = s.reg rs) ∨ (i = .subI rd imm16 ∧ src = BitVec.signExtend 32 imm16)) :
    exec i s = .next (s.subInto rd src) := by
  obtain ⟨rfl, rfl⟩ | ⟨rfl, rfl⟩ := h <;> rfl

end TwoForms

/-- Settles O21. Both forms are one move, whose Z and N are read as arithmetic on the value moved. -/
theorem movCopiesItsOperand : Obligations.MovCopiesItsOperand := by
  intro s rd rs imm16 i src h
  refine ⟨_, exec_mov h, fun q => ?_, flagZ_iff src, flagN_iff src, rfl, rfl, rfl, rfl, rfl, rfl, fun _ => rfl⟩
  rw [State.reg_moveInto, if_congr eq_comm rfl rfl]

/-- Settles O22. The flag functions are read as arithmetic on the operands. -/
theorem addGivesSumAndFlags : Obligations.AddGivesSumAndFlags := by
  intro s rd rs imm16 i src h
  refine ⟨_, exec_add h, fun q => ?_, ?z, ?n, carryOfAdd_iff _ src, overflowOfAdd_iff _ src,
    rfl, rfl, rfl, rfl, fun _ => rfl⟩
  · rw [State.reg_addInto, if_congr eq_comm rfl rfl]
  case z => exact (flagZ_iff _).trans BitVec.toNat_eq
  case n => exact flagN_iff _

/-- Settles O23. The flag functions are read as arithmetic on the operands. -/
theorem subGivesDifferenceAndFlags : Obligations.SubGivesDifferenceAndFlags := by
  intro s rd rs imm16 i src h
  refine ⟨_, exec_sub h, fun q => ?_, ?z, flagN_iff _, borrowOfSub_iff _ src, overflowOfSub_iff _ src,
    rfl, rfl, rfl, rfl, fun _ => rfl⟩
  · rw [State.reg_subInto, if_congr eq_comm rfl rfl]
  case z => exact (flagZ_iff _).trans sub_eq_zero

/-- Settles O52. C of ADD is defined so, and the borrow of SUB is bit 32 of the wide difference. -/
theorem carryIsBit32OfTheWideResult : Obligations.CarryIsBit32OfTheWideResult := by
  intro s rd rs imm16 i src
  exact ⟨fun h => ⟨_, exec_add h, rfl⟩, fun h => ⟨_, exec_sub h, borrowOfSub_eq_getLsbD _ src⟩⟩

/-- Settles O53. The negative of a word is its complement plus 1, and no borrow occurs when that sum carries. -/
theorem subIsAddOfTheTwosComplement : Obligations.SubIsAddOfTheTwosComplement := by
  intro s rd rs imm16 i src h
  refine ⟨_, exec_sub h, ?_, (borrowOfSub_iff _ src).trans ?_⟩
  · rw [State.reg_subInto_same, BitVec.sub_eq_add_neg, BitVec.neg_eq_not_add]
    rfl
  · rw [BitVec.toNat_not]
    omega

theorem dataFault_none {s : State} {ea : Word} (hadmit : s.cfg.misaligned = .bytewise ∨ ea.toNat % 4 = 0)
    (hb : s.backed ea = true) (d : DataAccess) : s.dataFault ea d = none :=
  (s.dataFault_eq_none ea d).2 ⟨hadmit.imp_right (aligned_iff ea).2, hb⟩

theorem dataFault_misaligned {s : State} {ea : Word} (hpolicy : s.cfg.misaligned = .fault) (hea : ea.toNat % 4 ≠ 0)
    (d : DataAccess) : s.dataFault ea d = some (.misalignedAccess ea d) :=
  (s.dataFault_eq_some ea d _).2 (.inl ⟨hpolicy, (aligned_eq_false ea).2 hea, rfl⟩)

theorem dataFault_unbacked {s : State} {ea : Word} (hadmit : s.cfg.misaligned = .bytewise ∨ ea.toNat % 4 = 0)
    (hb : s.backed ea = false) (d : DataAccess) : s.dataFault ea d = some (.busError ea (.data d)) :=
  (s.dataFault_eq_some ea d _).2 (.inr ⟨hadmit.imp_right (aligned_iff ea).2, hb, rfl⟩)

/-- Settles O24. The access raises nothing, so LOAD moves the word at the address into Rd. -/
theorem loadReadsTheWord : Obligations.LoadReadsTheWord := by
  rintro s rd rs imm16 _ _ rfl rfl hadmit hb
  refine ⟨_, exec_of_no_accessFault (i := .load rd rs imm16) (dataFault_none hadmit hb .load), fun q => ?_, flagZ_iff _,
    flagN_iff _, rfl, rfl, rfl, rfl, rfl, rfl, fun _ => rfl⟩
  exact (s.reg_moveInto rd _ q).trans (if_congr eq_comm rfl rfl)

/-- Settles O25. The access raises nothing, so STORE puts the word at the address and advances. -/
theorem storeWritesTheWord : Obligations.StoreWritesTheWord := by
  rintro s rs rd imm16 ea rfl hadmit hb
  obtain ⟨h0, h1, h2, h3⟩ := s.readByte_putWord_inside (s.effectiveAddress rd imm16) (s.reg rs)
  refine ⟨_, exec_of_no_accessFault (i := .store rs rd imm16) (dataFault_none hadmit hb .store), h0, h1, h2, h3,
    fun a ha ha1 ha2 ha3 => ?_, fun _ => rfl, rfl, rfl, rfl, rfl, rfl⟩
  exact s.readByte_putWord_outside _ _ a ⟨ha, ha1, ha2, ha3⟩

/-- Settles O29. The alignment test comes first in the fault of a data access. -/
theorem misalignedDataAccessTakesTheFault : Obligations.MisalignedDataAccessTakesTheFault := by
  rintro s ra rb imm16 ea rfl hpolicy hea
  exact ⟨exec_of_accessFault (i := .load ra rb imm16) (dataFault_misaligned hpolicy hea .load),
    exec_of_accessFault (i := .store ra rb imm16) (dataFault_misaligned hpolicy hea .store)⟩

/-- Settles O30. The alignment test passes, so the fault of the data access is that of MEM_MAP. -/
theorem unbackedDataAccessTakesBusError : Obligations.UnbackedDataAccessTakesBusError := by
  rintro s ra rb imm16 ea rfl hadmit hb
  exact ⟨exec_of_accessFault (i := .load ra rb imm16) (dataFault_unbacked hadmit hb .load),
    exec_of_accessFault (i := .store ra rb imm16) (dataFault_unbacked hadmit hb .store)⟩

/-- Settles O26. -/
theorem jmpGoesToItsTarget : Obligations.JmpGoesToItsTarget := fun _ _ => rfl

/-- Settles O27. A jump writes `pc` only, with the target or the next instruction by its condition. -/
theorem conditionalJumpsTestZ : Obligations.ConditionalJumpsTestZ := by
  intro s offset16
  refine ⟨congrArg _ (s.jumpIf_eq s.flags.z offset16), (congrArg _ (s.jumpIf_eq (!s.flags.z) offset16)).trans ?_⟩
  cases s.flags.z <;> rfl

/-- Settles O28. -/
theorem haltOnlySetsTheRunState : Obligations.HaltOnlySetsTheRunState := fun _ => rfl

end Sys2Proof.Machine

/-! Frames: what a completed instruction leaves as it was, register by register and byte by byte
(10_state.md R22, R30, R36). -/

namespace Sys2Proof.Machine

@[simp] theorem State.readByte_jumpIf (s : State) (taken : Bool) (offset16 : Half) (a : Word) :
    (s.jumpIf taken offset16).readByte a = s.readByte a := by
  rw [State.jumpIf_eq, State.readByte_setPc]

theorem reg_completion_of_ne_dest (s : State) {i : Instr} {q : Reg} (h : destReg i ≠ some q) :
    (completion s i).reg q = s.reg q := by
  cases i with
  | movR rd | movI rd | load rd => exact (s.reg_moveInto rd _ q).trans (if_neg fun e => h (congrArg some e))
  | addR rd | addI rd => exact (s.reg_addInto rd _ q).trans (if_neg fun e => h (congrArg some e))
  | subR rd | subI rd => exact (s.reg_subInto rd _ q).trans (if_neg fun e => h (congrArg some e))
  | jmp | jz | jnz => exact s.reg_jumpIf _ _ q
  | store | halt => rfl

theorem readByte_completion_of_ne_store (s : State) {i : Instr} (h : i.mnemonic ≠ .store) (a : Word) :
    (completion s i).readByte a = s.readByte a := by
  cases i with
  | store => exact absurd rfl h
  | jmp | jz | jnz => exact s.readByte_jumpIf _ _ a
  | _ => rfl

/-- Settles O31. Each of the six forms completes with the destination Rd, and is neither HALT nor STORE. -/
theorem frameOfMovAddSub : Obligations.FrameOfMovAddSub := by
  intro s t i rd rs imm16 hi hexec
  obtain ⟨rfl, hdest, hmn⟩ : t = completion s i ∧ destReg i = some rd ∧ i.mnemonic ∈ [.mov, .add, .sub] := by
    simp only [List.mem_cons, List.not_mem_nil, or_false] at hi
    obtain rfl | rfl | rfl | rfl | rfl | rfl := hi <;> cases hexec <;> exact ⟨rfl, rfl, by simp [Instr.mnemonic]⟩
  have hstore : i.mnemonic ≠ .store := fun h => absurd hmn (by rw [h]; decide)
  have hhalt : i ≠ .halt := fun h => absurd hmn (by rw [h]; decide)
  refine ⟨fun q hq => reg_completion_of_ne_dest s fun h => hq (Option.some.inj (h.symm.trans hdest)), fun hmov => ?mov,
    sp_completion s i, run_completion_of_ne_halt s hhalt, cfg_completion s i,
    readByte_completion_of_ne_store s hstore⟩
  case mov =>
    cases i with
    | movR | movI => exact ⟨rfl, rfl⟩
    | _ => exact nomatch hmov

/-- Settles O32. A LOAD that faults changes only the run state, and one that completes moves a word into Rd. -/
theorem frameOfLoad : Obligations.FrameOfLoad := by
  intro s t rd rs imm16 hexec
  obtain ⟨c, rfl⟩ | rfl := exec_next_cases hexec
  · exact ⟨fun _ _ => rfl, rfl, rfl, rfl, rfl, fun _ => rfl, .inr ⟨c, rfl⟩⟩
  · exact ⟨fun q hq => reg_completion_of_ne_dest s fun h => hq (Option.some.inj h).symm, rfl, rfl, rfl, rfl,
      fun _ => rfl, .inl rfl⟩

/-- Settles O33. A STORE that faults changes only the run state, and one that completes puts a word at its address. -/
theorem frameOfStore : Obligations.FrameOfStore := by
  intro s t rs rd imm16 hexec
  obtain ⟨c, rfl⟩ | rfl := exec_next_cases hexec
  · exact ⟨fun _ => rfl, rfl, rfl, rfl, fun _ _ _ _ _ _ _ => rfl, .inr ⟨c, rfl⟩⟩
  · refine ⟨fun _ => rfl, rfl, rfl, rfl, ?_, .inl rfl⟩
    rintro ea a rfl ha ha1 ha2 ha3
    exact s.readByte_putWord_outside _ _ a ⟨ha, ha1, ha2, ha3⟩

/-- Settles O34. The jumps write `pc` and HALT the run state. -/
theorem frameOfJumpsAndHalt : Obligations.FrameOfJumpsAndHalt := by
  intro s t i offset16 hi hexec
  simp only [List.mem_cons, List.not_mem_nil, or_false] at hi
  obtain rfl | rfl | rfl | rfl := hi <;> cases hexec
  case inr.inr.inr => exact ⟨fun _ => rfl, rfl, rfl, rfl, fun _ => rfl, fun h => absurd rfl h, fun _ => rfl⟩
  all_goals
    exact ⟨s.reg_jumpIf _ _, s.jumpIf_flags _ _, s.jumpIf_sp _ _, s.jumpIf_cfg _ _, s.readByte_jumpIf _ _,
      fun _ => s.jumpIf_run _ _, nofun⟩

/-- Settles O36. A fault changes no byte, and of the instructions only STORE does, in the four bytes of its word. -/
theorem onlyStoreChangesMemory : Obligations.OnlyStoreChangesMemory := by
  intro L s t a hstep hne
  obtain ⟨c, rfl⟩ | ⟨i, hi, rfl⟩ := stepUnder_next_cases hstep
  · exact absurd rfl hne
  by_cases hstore : i.mnemonic = .store
  · cases i with
    | store rs rd imm16 =>
      refine ⟨rs, rd, imm16, hi, ?_⟩
      by_contra hfar
      refine hne (s.readByte_putWord_outside (s.effectiveAddress rd imm16) _ a ?_)
      simp only [State.effectiveAddress, sext32]
      bv_omega
    | _ => exact nomatch hstore
  · exact absurd (readByte_completion_of_ne_store s hstore a) hne

end Sys2Proof.Machine

/-! What an instruction reads: a change of SP, of a flag other than Z or of a register that it does not read goes
through it (10_state.md R22, R27, R31). -/

namespace Sys2Proof.Machine

theorem mapNext_exec (f : State → State) (i : Instr) (s : State) :
    mapNext f (exec i s) = .next ((accessFault s i).elim (f (completion s i)) fun c => f (s.enterFault c)) := by
  rw [exec_eq]
  cases accessFault s i <;> rfl

/-- An update of the state that changes no access fault, and that completion and taking a fault commute with, commutes
with `exec`. -/
theorem exec_comm {f : State → State} {i : Instr} {s : State} (haccess : accessFault (f s) i = accessFault s i)
    (hcompletion : completion (f s) i = f (completion s i)) (hfault : ∀ c, (f s).enterFault c = f (s.enterFault c)) :
    exec i (f s) = mapNext f (exec i s) := by
  rw [mapNext_exec, exec_eq, haccess, hcompletion, funext hfault]

section StackPointer

/-- `sp <- v`. -/
def State.setSp (s : State) (v : Word) : State := { s with sp := v }

variable (s : State) (v : Word)

theorem State.jumpIf_setSp (taken : Bool) (offset16 : Half) :
    (s.setSp v).jumpIf taken offset16 = (s.jumpIf taken offset16).setSp v := by
  rw [State.jumpIf_eq, State.jumpIf_eq]
  rfl

theorem accessFault_setSp (i : Instr) : accessFault (s.setSp v) i = accessFault s i := by
  cases i <;> rfl

theorem completion_setSp (i : Instr) : completion (s.setSp v) i = (completion s i).setSp v := by
  cases i with
  | jmp | jz | jnz => exact s.jumpIf_setSp v _ _
  | _ => rfl

end StackPointer

/-- Settles O46. Setting SP commutes with the completion and with taking a fault. -/
theorem stackPointerIsInert : Obligations.StackPointerIsInert := fun i s v =>
  exec_comm (f := fun t => t.setSp v) (accessFault_setSp s v i) (completion_setSp s v i) fun _ => rfl

section Registers

variable (s : State) {q : Reg} (v : Word)

theorem State.setReg_comm {r : Reg} (h : r ≠ q) (w : Word) :
    (s.setReg q v).setReg r w = (s.setReg r w).setReg q v := by
  refine State.ext_reg (fun x => ?_) rfl rfl rfl rfl rfl rfl
  simp only [State.reg_setReg]
  split <;> rename_i hr
  · rw [if_neg fun hq => h (hr.trans hq.symm)]
  · rfl

theorem State.setReg_setReg (w : Word) : (s.setReg q v).setReg q w = s.setReg q w := by
  refine State.ext_reg (fun x => ?_) rfl rfl rfl rfl rfl rfl
  simp only [State.reg_setReg]
  split <;> rfl

theorem State.moveInto_setReg {rd : Reg} (h : rd ≠ q) (src : Word) :
    (s.setReg q v).moveInto rd src = (s.moveInto rd src).setReg q v := by
  rw [State.moveInto, State.setReg_comm s v h]
  rfl

theorem State.moveInto_setReg_same (src : Word) : (s.setReg q v).moveInto q src = s.moveInto q src := by
  rw [State.moveInto, State.setReg_setReg]
  rfl

theorem State.addInto_setReg {rd : Reg} (h : rd ≠ q) (src : Word) :
    (s.setReg q v).addInto rd src = (s.addInto rd src).setReg q v := by
  rw [State.addInto, State.setReg_comm s v h, State.reg_setReg_other s v h]
  rfl

theorem State.subInto_setReg {rd : Reg} (h : rd ≠ q) (src : Word) :
    (s.setReg q v).subInto rd src = (s.subInto rd src).setReg q v := by
  rw [State.subInto, State.setReg_comm s v h, State.reg_setReg_other s v h]
  rfl

theorem State.jumpIf_setReg (taken : Bool) (offset16 : Half) :
    (s.setReg q v).jumpIf taken offset16 = (s.jumpIf taken offset16).setReg q v := by
  rw [State.jumpIf_eq, State.jumpIf_eq]
  rfl

theorem State.effectiveAddress_setReg {base : Reg} (h : base ≠ q) (imm16 : Half) :
    (s.setReg q v).effectiveAddress base imm16 = s.effectiveAddress base imm16 := by
  rw [State.effectiveAddress, State.reg_setReg_other s v h, State.effectiveAddress]

@[simp] theorem State.wordAt_setReg (a : Word) : (s.setReg q v).wordAt a = s.wordAt a := rfl

@[simp] theorem State.dataFault_setReg (a : Word) (d : DataAccess) :
    (s.setReg q v).dataFault a d = s.dataFault a d := rfl

theorem State.putWord_setReg (a w : Word) : (s.setReg q v).putWord a w = (s.putWord a w).setReg q v := rfl

theorem accessFault_setReg {i : Instr} (hread : q ∉ readRegs i) : accessFault (s.setReg q v) i = accessFault s i := by
  cases i with
  | load rd rs =>
    have hrs : rs ≠ q := fun h => hread (by simp [readRegs, h])
    simp only [accessFault, State.effectiveAddress_setReg s v hrs, State.dataFault_setReg]
  | store rs rd =>
    have hrd : rd ≠ q := fun h => hread (by simp [readRegs, h])
    simp only [accessFault, State.effectiveAddress_setReg s v hrd, State.dataFault_setReg]
  | _ => rfl

theorem completion_setReg {i : Instr} (hread : q ∉ readRegs i) (hdest : destReg i ≠ some q) :
    completion (s.setReg q v) i = (completion s i).setReg q v := by
  have hrd {rd : Reg} (h : destReg i = some rd) : rd ≠ q := fun e => hdest (e ▸ h)
  have hrs {rs : Reg} (h : rs ∈ readRegs i) : rs ≠ q := fun e => hread (e ▸ h)
  cases i with
  | movR rd rs =>
    rw [completion, State.reg_setReg_other s v (hrs (by simp [readRegs])),
      State.moveInto_setReg s v (hrd rfl), completion]
  | movI rd => exact State.moveInto_setReg s v (hrd rfl) _
  | addR rd rs =>
    rw [completion, State.reg_setReg_other s v (hrs (by simp [readRegs])),
      State.addInto_setReg s v (hrd rfl), completion]
  | addI rd => exact State.addInto_setReg s v (hrd rfl) _
  | subR rd rs =>
    rw [completion, State.reg_setReg_other s v (hrs (by simp [readRegs])),
      State.subInto_setReg s v (hrd rfl), completion]
  | subI rd => exact State.subInto_setReg s v (hrd rfl) _
  | load rd rs =>
    rw [completion, State.effectiveAddress_setReg s v (hrs (by simp [readRegs])), State.wordAt_setReg,
      State.moveInto_setReg s v (hrd rfl), completion]
  | store rs rd =>
    rw [completion, State.effectiveAddress_setReg s v (hrs (by simp [readRegs])),
      State.reg_setReg_other s v (hrs (by simp [readRegs])), State.putWord_setReg, completion]
    rfl
  | jmp | jz | jnz => exact s.jumpIf_setReg v _ _
  | halt => rfl

/-- A destination that is not read first is that of MOV or LOAD, whose move overwrites what it held. -/
theorem completion_setReg_dest {i : Instr} (hread : q ∉ readRegs i) (hdest : destReg i = some q) :
    completion (s.setReg q v) i = completion s i := by
  have hrs {rs : Reg} (h : rs ∈ readRegs i) : rs ≠ q := fun e => hread (e ▸ h)
  cases i with
  | movR rd rs =>
    cases hdest
    rw [completion, State.reg_setReg_other s v (hrs (by simp [readRegs])), State.moveInto_setReg_same, completion]
  | movI rd =>
    cases hdest
    exact s.moveInto_setReg_same v _
  | load rd rs =>
    cases hdest
    rw [completion, State.effectiveAddress_setReg s v (hrs (by simp [readRegs])), State.wordAt_setReg,
      State.moveInto_setReg_same, completion]
  | addR rd | addI rd | subR rd | subI rd =>
    cases hdest
    exact absurd rfl (hrs (by simp [readRegs]))
  | store | jmp | jz | jnz | halt => exact nomatch hdest

end Registers

/-- Settles O35. Only a completed instruction writes a register, its destination; setting a register that it neither
reads nor writes commutes with it; and a destination that it does not read is overwritten. -/
theorem registersWrittenAndRead : Obligations.RegistersWrittenAndRead := by
  refine ⟨?written, ?unread, ?overwritten⟩
  case written =>
    intro L s t q hstep hne
    obtain ⟨c, rfl⟩ | ⟨i, hi, rfl⟩ := stepUnder_next_cases hstep
    · exact absurd rfl hne
    · exact ⟨i, hi, by_contra fun hdest => hne (reg_completion_of_ne_dest s hdest)⟩
  case unread =>
    intro i s q v hread hdest
    exact exec_comm (f := fun t => t.setReg q v) (accessFault_setReg s v hread) (completion_setReg s v hread hdest)
      fun _ => rfl
  case overwritten =>
    intro i s t q v hread hdest hexec hcompletes
    obtain ⟨c, -, rfl⟩ | ⟨hnone, rfl⟩ := exec_next_access_cases hexec
    · exact absurd rfl (hcompletes c)
    · rw [exec_of_no_accessFault ((accessFault_setReg s v hread).trans hnone), completion_setReg_dest s v hread hdest]

section Flags

variable (s : State) (f : Flags)

theorem accessFault_setFlags (i : Instr) : accessFault (s.setFlags f) i = accessFault s i := by
  cases i <;> rfl

theorem State.jumpIf_setFlags (taken : Bool) (offset16 : Half) :
    (s.setFlags f).jumpIf taken offset16 = (s.jumpIf taken offset16).setFlags f := by
  rw [State.jumpIf_eq, State.jumpIf_eq]
  rfl

/-- The flags that an instruction leaves when it completes: `f` those it found, `g` those it would leave if it wrote
all four (10_state.md R30). -/
def flagsAfter (f g : Flags) : Mnemonic → Flags
  | .add | .sub => g
  | .mov | .load => { g with c := f.c, v := f.v }
  | .store | .jmp | .jz | .jnz | .halt => f

/-- Of the flags found only Z, as the condition of a jump, has a part in what an instruction does. -/
theorem completion_setFlags {f : Flags} (hz : f.z = s.flags.z) (i : Instr) :
    completion (s.setFlags f) i = (completion s i).setFlags (flagsAfter f (completion s i).flags i.mnemonic) := by
  cases i with
  | jz offset16 | jnz offset16 =>
    simp only [completion, State.setFlags_flags, hz]
    exact s.jumpIf_setFlags f _ offset16
  | jmp => exact s.jumpIf_setFlags f _ _
  | _ => rfl

end Flags

/-- The instructions that write no flag (10_state.md R30). -/
def flagless : List Mnemonic := [.store, .jmp, .jz, .jnz, .halt]

theorem flags_completion_of_flagless (s : State) {i : Instr} (h : i.mnemonic ∈ flagless) :
    (completion s i).flags = s.flags := by
  cases i with
  | store | halt => rfl
  | jmp | jz | jnz => exact s.jumpIf_flags _ _
  | _ => simp [flagless, Instr.mnemonic] at h

theorem pc_completion_of_not_flagless (s : State) {i : Instr} (h : i.mnemonic ∉ flagless) :
    (completion s i).pc = s.pc + 4 := by
  cases i with
  | jmp | jz | jnz | halt => simp [flagless, Instr.mnemonic] at h
  | _ => rfl

/-- An instruction that advances `pc` has not left the state after a fault, whose `pc` is unchanged. -/
theorem flagless_of_completion_eq_enterFault {s : State} {i : Instr} {c : FaultCause}
    (h : completion s i = s.enterFault c) : i.mnemonic ∈ flagless := by
  by_contra hnot
  have hpc := pc_completion_of_not_flagless s hnot
  rw [h, State.enterFault_pc] at hpc
  bv_omega

theorem flagsAfter_of_flagless (f g : Flags) {m : Mnemonic} (h : m ∈ flagless) : flagsAfter f g m = f := by
  cases m with
  | mov | add | sub | load => simp [flagless] at h
  | _ => rfl

theorem z_flagsAfter_of_not_flagless (f g : Flags) {m : Mnemonic} (h : m ∉ flagless) : (flagsAfter f g m).z = g.z := by
  cases m with
  | mov | add | sub | load => rfl
  | _ => simp [flagless] at h

/-- Only LOAD and STORE access data. -/
theorem mnemonic_of_accessFault {s : State} {i : Instr} {c : FaultCause} (h : accessFault s i = some c) :
    i.mnemonic = .load ∨ i.mnemonic = .store := by
  obtain ⟨-, -, ⟨rd, rs, imm16, rfl, -⟩ | ⟨rs, rd, imm16, rfl, -⟩, -⟩ := accessFault_cases h
  · exact .inl rfl
  · exact .inr rfl

/-- Settles O47. A fault leaves all flags as it found them; a completed instruction leaves those it does not write, and
writes the others without reading N, C or V. -/
theorem onlyZIsRead : Obligations.OnlyZIsRead := by
  intro i s t t' f hz hexec hexec'
  change exec i (s.setFlags f) = .next t' at hexec'
  obtain ⟨c, hfault, rfl⟩ | ⟨hnone, rfl⟩ := exec_next_access_cases hexec
  · have hmn := mnemonic_of_accessFault hfault
    rw [exec_of_accessFault ((accessFault_setFlags s f i).trans hfault)] at hexec'
    injection hexec' with ht'
    subst ht'
    refine ⟨rfl, hz, fun h => ?_, fun h => ?_, fun _ => rfl⟩
    · obtain h | h := h <;> rw [h] at hmn <;> exact absurd hmn (by decide)
    · obtain h | ⟨-, h⟩ := h
      · rw [h] at hmn
        exact absurd hmn (by decide)
      · exact absurd rfl (h c)
  · rw [exec_of_no_accessFault ((accessFault_setFlags s f i).trans hnone), completion_setFlags s hz] at hexec'
    injection hexec' with ht'
    subst ht'
    refine ⟨rfl, ?z, fun h => ?_, fun h => ?_, fun h => ?_⟩
    case z =>
      by_cases hmn : i.mnemonic ∈ flagless
      · rw [flags_completion_of_flagless s hmn, ← hz, State.setFlags_flags, flagsAfter_of_flagless _ _ hmn]
      · exact z_flagsAfter_of_not_flagless _ _ hmn
    · obtain h | h := h <;> rw [State.setFlags_flags, h] <;> rfl
    · obtain h | ⟨h, -⟩ := h <;> rw [State.setFlags_flags, h] <;> rfl
    · exact flagsAfter_of_flagless _ _ (h.elim id fun ⟨_, hc⟩ => flagless_of_completion_eq_enterFault hc)

end Sys2Proof.Machine

/-! Words in memory: a word and its four bytes, a LOAD or a fetch of what a STORE has put there, and the word that the
host's load of an image leaves at address 0 (20_memory.md R51, R60, R64, R68; 70_reset_and_hazards.md R182). -/

namespace Sys2Proof.Machine

section Bytes

variable (b0 b1 b2 b3 : Byte)

theorem byteOfWord_wordOfBytes :
    byteOfWord (wordOfBytes b0 b1 b2 b3) 0 = b0 ∧ byteOfWord (wordOfBytes b0 b1 b2 b3) 1 = b1 ∧
    byteOfWord (wordOfBytes b0 b1 b2 b3) 2 = b2 ∧ byteOfWord (wordOfBytes b0 b1 b2 b3) 3 = b3 := by
  refine ⟨?_, ?_, ?_, ?_⟩ <;>
  · refine BitVec.eq_of_getLsbD_eq fun k hk => ?_
    simp only [wordOfBytes, byteOfWord, BitVec.getLsbD_append, BitVec.getLsbD_extractLsb']
    grind

end Bytes

/-- Settles O58. A word is put together from its bytes and taken apart into them; the opcode is its byte 3. -/
theorem wordsAreLittleEndian : Obligations.WordsAreLittleEndian := by
  refine ⟨fun s a v => ⟨?apart, ?together⟩, fun s => ?opcode⟩
  case apart =>
    rintro rfl
    obtain ⟨h0, h1, h2, h3⟩ :=
      byteOfWord_wordOfBytes (s.readByte a) (s.readByte (a + 1)) (s.readByte (a + 2)) (s.readByte (a + 3))
    exact ⟨h0.symm, h1.symm, h2.symm, h3.symm⟩
  case together =>
    rintro ⟨h0, h1, h2, h3⟩
    rw [State.wordAt, h0, h1, h2, h3]
    exact wordOfBytes_byteOfWord v
  case opcode => exact (byteOfWord_wordOfBytes _ _ _ _).2.2.2

/-- An execution that leaves a running machine raised no fault. -/
theorem completion_of_running {i : Instr} {s t : State} (hexec : exec i s = .next t) (ht : t.run = .running) :
    accessFault s i = none ∧ t = completion s i := by
  obtain ⟨c, -, rfl⟩ | hcompletes := exec_next_access_cases hexec
  · exact nomatch ht
  · exact hcompletes

/-- Whether a data access raises a fault does not depend on its direction. -/
theorem dataFault_none_of_none {s : State} {a : Word} {d : DataAccess} (h : s.dataFault a d = none) (d' : DataAccess) :
    s.dataFault a d' = none :=
  (s.dataFault_eq_none a d').2 ((s.dataFault_eq_none a d).1 h)

/-- Settles O55. The LOAD makes the access that the STORE has made, so it completes with the word put there. -/
theorem loadAfterStoreGivesTheValue : Obligations.LoadAfterStoreGivesTheValue := by
  intro s t u rs rd rd' rs' imm16 imm16' _ hstore ht hea hload
  obtain ⟨hnone, rfl⟩ := completion_of_running hstore ht
  have hea : (completion s (.store rs rd imm16)).effectiveAddress rs' imm16' = s.effectiveAddress rd imm16 := hea
  have hload_none : accessFault (completion s (.store rs rd imm16)) (.load rd' rs' imm16') = none := by
    rw [accessFault, hea, State.dataFault_congr (cfg_completion s _)]
    exact dataFault_none_of_none hnone .load
  rw [exec_of_no_accessFault hload_none] at hload
  injection hload with hu
  subst hu
  refine ⟨ht, (State.reg_moveInto_same _ rd' _).trans ?_⟩
  rw [hea]
  exact s.wordAt_putWord_same _ _

/-- Settles O56. The STORE completed, so the word put at the next `pc` is backed, and the fetch reads it. -/
theorem storedWordIsFetched : Obligations.StoredWordIsFetched := by
  intro s t rs rd imm16 i _ hpc hstore ht hea hdecode
  obtain ⟨hnone, rfl⟩ := completion_of_running hstore ht
  have hpc' : (completion s (.store rs rd imm16)).pc = s.effectiveAddress rd imm16 := hea.symm
  refine stepUnder_eq_exec ht (pcAligned_completion hpc _) ?backed ?decode
  case backed =>
    rw [hpc', State.backed_congr (cfg_completion s _)]
    exact ((s.dataFault_eq_none _ _).1 hnone).2
  case decode =>
    have hword : (completion s (.store rs rd imm16)).wordAt (s.effectiveAddress rd imm16) = s.reg rs :=
      s.wordAt_putWord_same _ _
    rw [hpc', hword, cfg_completion]
    exact hdecode

/-- Settles O57. The policy admits the address, so both accesses complete with the word there. -/
theorem bytewisePolicyIgnoresAlignment : Obligations.BytewisePolicyIgnoresAlignment := by
  rintro s ra rb imm16 ea hpolicy rfl hb
  refine ⟨⟨_, exec_of_no_accessFault (i := .load ra rb imm16) (dataFault_none (.inl hpolicy) hb .load), rfl, ?_⟩,
    ⟨_, exec_of_no_accessFault (i := .store ra rb imm16) (dataFault_none (.inl hpolicy) hb .store), rfl, ?_⟩⟩
  · exact s.reg_moveInto_same ra _
  · exact s.wordAt_putWord_same _ (s.reg ra)

/-! ### The host's load -/

/-- The first four bytes of a load put a word at its address. -/
theorem State.loadBytes_bytesOfWord (s : State) (a w : Word) (bs : List Byte) :
    s.loadBytes a (bytesOfWord w ++ bs) = (s.putWord a w).loadBytes (a + 4) bs := by
  have h2 : a + 1 + 1 = a + 2 := by bv_omega
  have h3 : a + 2 + 1 = a + 3 := by bv_omega
  have h4 : a + 3 + 1 = a + 4 := by bv_omega
  simp only [bytesOfWord, List.cons_append, List.nil_append, State.loadBytes, h2, h3, h4, State.putWord]

theorem State.foldl_loadBytes_cfg (data : List (Word × List Byte)) (s : State) :
    (data.foldl (fun t d => t.loadBytes d.1 d.2) s).cfg = s.cfg := by
  induction data generalizing s with
  | nil => rfl
  | cons d ds ih => rw [List.foldl_cons, ih, State.loadBytes_cfg]

theorem State.readByte_foldl_loadBytes_outside (data : List (Word × List Byte)) (s : State) (x : Word)
    (h : ∀ d ∈ data, ∀ k, k < d.2.length → d.1 + BitVec.ofNat 32 k ≠ x) :
    (data.foldl (fun t d => t.loadBytes d.1 d.2) s).readByte x = s.readByte x := by
  induction data generalizing s with
  | nil => rfl
  | cons d ds ih =>
    rw [List.foldl_cons, ih _ fun d' hd' => h d' (List.mem_cons_of_mem _ hd'),
      State.readByte_loadBytes_outside _ _ _ _ (h d List.mem_cons_self)]

/-- A byte of the first word keeps the image's value: neither the rest of the image nor the data fall on it. -/
theorem State.readByte_launch_first (s : State) (i : Instr) (is : List Instr) (data : List (Word × List Byte))
    (hlen : is.length < 2 ^ 30 - 1)
    (hdata : ∀ d ∈ data, ∀ k, k < d.2.length → 4 ≤ (d.1 + BitVec.ofNat 32 k).toNat) {x : Word} (hx : x.toNat < 4) :
    (s.launch (i :: is) data).readByte x = (s.putWord 0 (encode i)).readByte x := by
  have hrest : ∀ k, k < (imageBytes is).length → 0 + 4 + BitVec.ofNat 32 k ≠ x := by
    intro k hk
    rw [length_imageBytes] at hk
    bv_omega
  rw [State.launch, State.readByte_hostReset, State.readByte_foldl_loadBytes_outside, imageBytes, encodeBytes,
    State.loadBytes_bytesOfWord, State.readByte_loadBytes_outside _ _ _ _ hrest]
  intro d hd k hk hdx
  have := hdata d hd k hk
  rw [hdx] at this
  omega

/-- Settles O43. The word at address 0 is that of the first instruction, and reset leaves PC at 0. -/
theorem launchRunsTheFirstInstruction : Obligations.LaunchRunsTheFirstInstruction := by
  intro s i is data hlen hb hdata
  have hcfg : (s.launch (i :: is) data).cfg = s.cfg := by
    rw [State.launch, State.hostReset_cfg, State.foldl_loadBytes_cfg, State.loadBytes_cfg]
  have hbyte {x : Word} := State.readByte_launch_first s i is data hlen hdata (x := x)
  have hword : (s.launch (i :: is) data).wordAt 0 = encode i := by
    rw [State.wordAt, hbyte (by decide), hbyte (by decide), hbyte (by decide), hbyte (by decide), ← State.wordAt,
      State.wordAt_putWord_same]
  exact stepUnder_eq_exec (s := s.launch (i :: is) data) rfl rfl ((State.backed_congr hcfg 0).trans hb)
    (hword ▸ decodeWord_encode _ i)

end Sys2Proof.Machine

/-! Jumps: the displacement as a number, and the assembler's offsets (42_jumps.md R140, 30_encoding.md R95, R96). -/

namespace Sys2Proof.Machine

/-- The displacement of a jump is 4 times its signed offset. -/
theorem sext32_shiftLeft_two (offset16 : Half) :
    sext32 offset16 <<< (2 : Nat) = BitVec.ofInt 32 (4 * offset16.toInt) := by
  rw [BitVec.shiftLeft_eq_mul_twoPow, ← toInt_sext32, BitVec.ofInt_mul, BitVec.ofInt_toInt, BitVec.mul_comm]
  rfl

theorem State.jumpTarget_eq (s : State) (offset16 : Half) :
    s.jumpTarget offset16 = s.pc + 4 + BitVec.ofInt 32 (4 * offset16.toInt) := by
  rw [State.jumpTarget, sext32_shiftLeft_two]

/-- Four times a 16-bit offset is a 32-bit number. -/
theorem toInt_ofInt_displacement (offset16 : Half) :
    (BitVec.ofInt 32 (4 * offset16.toInt)).toInt = 4 * offset16.toInt := by
  have := toInt_half offset16
  rw [BitVec.toInt_ofInt]
  exact Int.bmod_eq_of_le (by omega) (by omega)

/-- Settles O54. The target is `pc + 4` and four times the offset, at each offset. -/
theorem jumpTargetsCountInstructions : Obligations.JumpTargetsCountInstructions := by
  intro s t i offset16 hjump hexec
  have htarget : t.pc = s.jumpTarget offset16 := by
    obtain rfl | ⟨rfl, hz⟩ | ⟨rfl, hz⟩ := hjump <;> cases hexec
    · rfl
    · rw [State.pc_jumpIf, hz, if_pos rfl]
    · rw [State.pc_jumpIf, hz, Bool.not_false, if_pos rfl]
  have hrange := toInt_half offset16
  have hpc := htarget.trans (s.jumpTarget_eq offset16)
  have hdist : (t.pc - (s.pc + 4)).toInt = 4 * offset16.toInt := by
    rw [hpc, add_sub_cancel_left, toInt_ofInt_displacement]
  refine ⟨htarget, hdist, by omega, by omega, ?_, ?_, ?_, fun k hk => ?_⟩
  · rintro rfl
    simpa using hpc
  · rintro rfl
    have : BitVec.ofInt 32 (4 * (0xFFFF : Half).toInt) = -4 := by decide
    rw [hpc, this]
    bv_omega
  · rintro rfl
    have : BitVec.ofInt 32 (4 * (0xFFFE : Half).toInt) = -8 := by decide
    rw [hpc, this]
    bv_omega
  · rintro rfl
    have hk' : (BitVec.ofNat 16 k).toInt = k := by
      rw [BitVec.toInt_ofNat']
      exact Int.bmod_eq_of_le (by omega) (by omega)
    rw [hpc, hk', ← BitVec.ofInt_natCast]
    rfl

/-- Settles O59. The label's address is the jump's, four and four times the offset, and so modulo 2^32. -/
theorem labelOffsetsReachTheLabel : Obligations.LabelOffsetsReachTheLabel := by
  intro s t a l offset16 _ _ hlabel hpc hexec
  rw [labelOffset_eq_some] at hlabel
  cases hexec
  rw [State.pc_jumpIf, if_pos rfl, State.jumpTarget_eq, hpc, ← BitVec.ofInt_natCast 32 l, hlabel, BitVec.ofInt_add,
    BitVec.ofInt_add, BitVec.ofInt_natCast]
  rfl

end Sys2Proof.Machine

/-! The assembler against what a written instruction says: it answers exactly that, says nothing of an ill-formed one,
and something of a well-formed one without labels (30_encoding.md R94 to R96). -/

namespace Sys2Proof.Machine

theorem assembleInstr_eq_some (program : List Line) (a : Nat) (src : Source) (i : Instr) :
    assembleInstr program a src = some i ↔ sourceSays program a src i := by
  cases src with
  | movR | addR | subR =>
    simp only [assembleInstr, sourceSays, Option.bind_eq_some_iff, Option.map_eq_some_iff, reg?_eq_some,
      exists_and_left, eq_comm (b := i)]
  | movI | addI | subI | load | store =>
    simp only [assembleInstr, sourceSays, Option.bind_eq_some_iff, Option.map_eq_some_iff, reg?_eq_some,
      half?_eq_some, exists_and_left, eq_comm (b := i)]
  | jmp | jz | jnz =>
    simp only [assembleInstr, sourceSays, Option.map_eq_some_iff, jumpField_eq_some, eq_comm (b := i)]
  | halt => simp only [assembleInstr, sourceSays, Option.some.injEq, eq_comm (b := i)]

theorem regExists_val (r : Reg) : regExists r.val = true := decide_eq_true r.isLt

theorem fitsHalf_toInt (h : Half) : fitsHalf h.toInt = true := by
  simpa [fitsHalf] using toInt_half h

theorem exists_reg_of_regExists {n : Nat} (h : regExists n = true) : ∃ r : Reg, r.val = n :=
  ⟨⟨n, of_decide_eq_true h⟩, rfl⟩

theorem exists_half_of_fitsHalf {n : Int} (h : fitsHalf n = true) : ∃ x : Half, x.toInt = n :=
  ⟨BitVec.ofInt 16 n, (half?_eq_some n _).1 (if_pos h)⟩

theorem JumpOperand.wellFormed_of_offsetSays {program : List Line} {a : Nat} {target : JumpOperand} {h : Half}
    (hsays : offsetSays program a target h) : target.wellFormed = true := by
  cases target with
  | words n => exact hsays ▸ fitsHalf_toInt h
  | label => rfl

/-- Only a well-formed written instruction says something: registers and 16-bit fields hold no other numbers. -/
theorem Source.wellFormed_of_sourceSays {program : List Line} {a : Nat} {src : Source} {i : Instr}
    (hsays : sourceSays program a src i) : src.wellFormed = true := by
  cases src with
  | movR | addR | subR =>
    obtain ⟨d, r, rfl, rfl, -⟩ := hsays
    simp only [Source.wellFormed, regExists_val, Bool.and_self]
  | movI | addI | subI =>
    obtain ⟨d, h, rfl, hval, -⟩ := hsays
    simp only [Source.wellFormed, regExists_val, ← hval, fitsHalf_toInt, Bool.and_self]
  | load | store =>
    obtain ⟨d, r, h, rfl, rfl, hval, -⟩ := hsays
    simp only [Source.wellFormed, regExists_val, ← hval, fitsHalf_toInt, Bool.and_self]
  | jmp | jz | jnz =>
    obtain ⟨h, hoffset, -⟩ := hsays
    exact JumpOperand.wellFormed_of_offsetSays hoffset
  | halt => rfl

/-- A jump operand that is a number in range says that number as its offset. -/
theorem exists_offsetSays {program : List Line} {a : Nat} {target : JumpOperand} (hwf : target.wellFormed = true)
    (hlabel : ∀ name, target ≠ .label name) : ∃ h, offsetSays program a target h := by
  cases target with
  | words n => exact exists_half_of_fitsHalf hwf
  | label name => exact absurd rfl (hlabel name)

theorem exists_sourceSays {program : List Line} {a : Nat} {src : Source} (hwf : src.wellFormed = true)
    (hlabel : ∀ name, src ≠ .jmp (.label name) ∧ src ≠ .jz (.label name) ∧ src ≠ .jnz (.label name)) :
    ∃ i, sourceSays program a src i := by
  cases src with
  | movR | addR | subR =>
    obtain ⟨hrd, hrs⟩ := (Bool.and_eq_true _ _).mp hwf
    obtain ⟨d, hd⟩ := exists_reg_of_regExists hrd
    obtain ⟨r, hr⟩ := exists_reg_of_regExists hrs
    exact ⟨_, d, r, hd, hr, rfl⟩
  | movI | addI | subI =>
    obtain ⟨hrd, himm⟩ := (Bool.and_eq_true _ _).mp hwf
    obtain ⟨d, hd⟩ := exists_reg_of_regExists hrd
    obtain ⟨h, hh⟩ := exists_half_of_fitsHalf himm
    exact ⟨_, d, h, hd, hh, rfl⟩
  | load | store =>
    obtain ⟨hregs, himm⟩ := (Bool.and_eq_true _ _).mp hwf
    obtain ⟨hra, hrb⟩ := (Bool.and_eq_true _ _).mp hregs
    obtain ⟨x, hx⟩ := exists_reg_of_regExists hra
    obtain ⟨y, hy⟩ := exists_reg_of_regExists hrb
    obtain ⟨h, hh⟩ := exists_half_of_fitsHalf himm
    exact ⟨_, x, y, h, hx, hy, hh, rfl⟩
  | jmp target =>
    obtain ⟨h, hh⟩ := exists_offsetSays hwf fun name e => (hlabel name).1 (congrArg Source.jmp e)
    exact ⟨_, h, hh, rfl⟩
  | jz target =>
    obtain ⟨h, hh⟩ := exists_offsetSays hwf fun name e => (hlabel name).2.1 (congrArg Source.jz e)
    exact ⟨_, h, hh, rfl⟩
  | jnz target =>
    obtain ⟨h, hh⟩ := exists_offsetSays hwf fun name e => (hlabel name).2.2 (congrArg Source.jnz e)
    exact ⟨_, h, hh, rfl⟩
  | halt => exact ⟨.halt, rfl⟩

/-- Settles O60. The assembler answers what the written instruction says, which an ill-formed one does not, and a
well-formed one without labels does. -/
theorem assemblerRefusesOutOfRange : Obligations.AssemblerRefusesOutOfRange := by
  intro program a src
  refine ⟨assembleInstr_eq_some program a src, fun hwf => ?refused, fun hwf hlabel => ?assembled⟩
  case refused =>
    refine Option.eq_none_iff_forall_ne_some.2 fun i hi => ?_
    have hsays := (assembleInstr_eq_some program a src i).1 hi
    exact nomatch hwf.symm.trans (Source.wellFormed_of_sourceSays hsays)
  case assembled =>
    obtain ⟨i, hsays⟩ := exists_sourceSays hwf hlabel
    exact Option.isSome_iff_exists.2 ⟨i, (assembleInstr_eq_some program a src i).2 hsays⟩

end Sys2Proof.Machine
